-- ==== Sys2Proof/Word.lean ====
section
/-! DEFINITION. The words of the block: bytes, nibbles, the 64-bit immediate, 16-bit addresses, register
identifiers, and the contents of an address space as the decoder's read port sees it. -/

namespace Sys2Proof

/-- A byte of the AddressSpace (R45); bit 7 is its most significant bit (R65). -/
abbrev Byte := BitVec 8

/-- A 4-bit field: half of the opcode byte (R68) or of the register byte (R69). -/
abbrev Nibble := BitVec 4

/-- The immediate `valC`: 64 bits, unsigned (R73). -/
abbrev Word64 := BitVec 64

/-- A 16-bit address as the loader hands it over: a segment's `virtualStart`, its `size`, the
`entryPoint` (R53, R190). Addresses in computations are natural numbers and never wrap (R10). -/
abbrev Addr16 := BitVec 16

/-- A register identifier (R25, R13): `reg n` for the 15 ordinary ones, `rnone` for the sentinel
`RNONE`. The block holds no register values. -/
inductive RegId where
  | reg (n : Fin 15)
  | rnone
deriving DecidableEq, Repr

/-- What the read port `M` (R100) shows the decoder: the byte at each address. Bounds are checked by the
reader against `MEM_SIZE`, before the byte is used (R46, R48). -/
abbrev Contents := Nat → Byte

end Sys2Proof
end

