-- ==== Sys2Proof/Config.lean ====
section
/-! DEFINITION. The implementation parameters of R9: those a rule reads, as plain data the machine carries
(every statement holds for every value of them), and the two open ones no rule reads, as constants without a
body. -/

namespace Sys2Proof

/-- `IMM_CHECK_ORDER` (R9, R107, R114): whether a decode checks the fields before or after the bounds of
the whole instruction. -/
inductive ImmCheckOrder where
  | fieldsFirst
  | boundsFirst
deriving DecidableEq, Repr

/-- `MRMOV_NIBBLES` (R9, R72): which nibble of a MemoryToRegister register byte may be the sentinel. -/
inductive MrmovNibbles where
  | sameAsRmmov
  | swapped
deriving DecidableEq, Repr

/-- The parameters of R9 that rules read. -/
structure Params where
  memSize       : Nat
  immCheckOrder : ImmCheckOrder
  mrmovNibbles  : MrmovNibbles
  haltStopsWalk : Bool
deriving DecidableEq, Repr

/-- The defaults of R9. -/
def Params.default : Params :=
  { memSize := 4096, immCheckOrder := .fieldsFirst, mrmovNibbles := .sameAsRmmov, haltStopsWalk := false }

/-- R9: `MEM_SIZE` is any value 1..65536; the other parameters admit each of their values. -/
def Params.wf (p : Params) : Bool := 1 ≤ p.memSize && p.memSize ≤ 65536

/-- `IMM_BYTES` (R9): the bytes of an immediate. -/
abbrev immBytes : Nat := 8

/-- `MAX_LEN` (R9): the bytes of the longest instruction. -/
abbrev maxLen : Nat := 10

/-- `LISTING_BYTE_COLUMN` (R9, R200): OPEN, outside the block; no rule and no definition reads it.
DESIGN CHOICE, log entry 12: a constant without a body. -/
opaque Config.listingByteColumn : Nat

/-- `EXIT_STATUS_ABORT` less one. DESIGN CHOICE, log entry 12: a constant without a body. -/
opaque Config.exitStatusAbortPred : Nat

/-- `EXIT_STATUS_ABORT` (R9, R196): OPEN but for its being non-zero. -/
def Config.exitStatusAbort : Nat := Config.exitStatusAbortPred + 1

end Sys2Proof
end

