-- ==== Sys2Proof/Machine/Operands.lean ====
section
/-! DEFINITION. The operand forms: the two nibbles of a byte, register identifiers and the classes of register
positions, bounds-checked reads, and the little-endian immediate. -/

namespace Sys2Proof

/-- `b[7:4]` (R10). -/
def hiNibble (b : Byte) : Nibble := b.extractLsb' 4 4

/-- `b[3:0]` (R10). -/
def loNibble (b : Byte) : Nibble := b.extractLsb' 0 4

/-- `{x, y}` (R10): the byte with high nibble `x` and low nibble `y`. -/
def byteOf (x y : Nibble) : Byte := x ++ y

/-- R25: a register identifier is "constructed by decoding a 4-bit nibble"; 0xF is the sentinel. -/
def RegId.ofNibble (n : Nibble) : RegId :=
  if h : n.toNat < 15 then .reg ⟨n.toNat, h⟩ else .rnone

/-- The nibble of a register identifier (R25). -/
def RegId.toNibble : RegId → Nibble
  | .reg n => BitVec.ofNat 4 n.val
  | .rnone => 0xF#4

/-- Whether an identifier is one of the 15 ordinary registers (R25). -/
def RegId.ordinary : RegId → Bool
  | .reg _ => true
  | .rnone => false

/-- The class of a register position (R27). -/
inductive RegClass where
  | reg
  | none
  | regOrNone
deriving DecidableEq, Repr

/-- R103: `admits(Reg, n) = n <= 14`, `admits(None, n) = n = 15`, `admits(RegOrNone, n) = true`. -/
def RegClass.admits : RegClass → RegId → Bool
  | .reg, r => r.ordinary
  | .none, r => !r.ordinary
  | .regOrNone, _ => true

/-- The bounds check of R11, byte by byte in increasing address: the first of the `n` addresses from `a` on
that is at or above `MEM_SIZE`, if there is one. -/
def Params.firstOutside (p : Params) : (a n : Nat) → Option Nat
  | _, 0 => .none
  | a, n + 1 => if p.memSize ≤ a then some a else p.firstOutside (a + 1) n

/-- R11, R50: the little-endian value of the `n` bytes from `a` on, the sum of `byte_i << (8*i)`. -/
def leValue (M : Contents) (a : Nat) : Nat → Nat
  | 0 => 0
  | n + 1 => leValue M a n + 2 ^ (8 * n) * (M (a + n)).toNat

/-- R73: the immediate, the 8 bytes from `a` on, neither extended nor scaled. -/
def immediateAt (M : Contents) (a : Nat) : Word64 := BitVec.ofNat 64 (leValue M a immBytes)

/-- R65: byte `i` of an immediate's encoding is `valC[8i+7 : 8i]`. -/
def immediateBytes (c : Word64) : List Byte :=
  (List.range immBytes).map fun i => c.extractLsb' (8 * i) 8

/-- The `n` bytes from `a` on, in address order: "the raw bytes spanned by the instruction" (R194). -/
def bytesAt (M : Contents) (a n : Nat) : List Byte := (List.range n).map fun k => M (a + k)

end Sys2Proof
end

