-- ==== Sys2Proof/Syntax.lean ====
section
/-! DEFINITION. The instructions: one constructor per row of spec/opcode_table.json, in the table's order.
An operand is a field of the encoding that has more than one legal value: a register identifier (R25), or the
64-bit immediate (R73). A register position that admits the sentinel only (R72) is no operand. -/

namespace Sys2Proof

/-- The 27 instructions of R78. -/
inductive Instr where
  /-- R125. -/
  | halt
  /-- R126. -/
  | nop
  /-- R131. -/
  | rrmovq (rA rB : RegId)
  /-- R132. -/
  | cmovle (rA rB : RegId)
  /-- R133. -/
  | cmovl (rA rB : RegId)
  /-- R134. -/
  | cmove (rA rB : RegId)
  /-- R135. -/
  | cmovne (rA rB : RegId)
  /-- R136. -/
  | cmovge (rA rB : RegId)
  /-- R137. -/
  | cmovg (rA rB : RegId)
  /-- R138; the first nibble is the sentinel, always. -/
  | irmovq (rB : RegId) (valC : Word64)
  /-- R139; `rB` is the base, `rnone` for none. -/
  | rmmovq (rA rB : RegId) (valC : Word64)
  /-- R140; `rB` is the base, `rnone` for none (with `MRMOV_NIBBLES = Swapped` the sentinel may stand in
  `rA` instead). -/
  | mrmovq (rA rB : RegId) (valC : Word64)
  /-- R151. -/
  | addq (rA rB : RegId)
  /-- R152. -/
  | subq (rA rB : RegId)
  /-- R153. -/
  | andq (rA rB : RegId)
  /-- R154. -/
  | xorq (rA rB : RegId)
  /-- R161. -/
  | jmp (valC : Word64)
  /-- R162. -/
  | jle (valC : Word64)
  /-- R163. -/
  | jl (valC : Word64)
  /-- R164. -/
  | je (valC : Word64)
  /-- R165. -/
  | jne (valC : Word64)
  /-- R166. -/
  | jge (valC : Word64)
  /-- R167. -/
  | jg (valC : Word64)
  /-- R168. -/
  | call (valC : Word64)
  /-- R169. -/
  | ret
  /-- R180; the second nibble is the sentinel, always. -/
  | pushq (rA : RegId)
  /-- R181; the second nibble is the sentinel, always. -/
  | popq (rA : RegId)
deriving DecidableEq, Repr

end Sys2Proof
end

