-- ==== Sys2Proof/Machine/Mux.lean ====
section
/-! DEFINITION. The instruction format dispatch mux: opcode classes, formats, and the "one dispatch table keyed
by opcode-class variant, each entry holding its length and a validation predicate over the decoded fields"
(R81, R111). Beside it, the same properties of an instruction (its class, its fields, its length), and the
choice of the instruction that a class and its fields name. -/

namespace Sys2Proof

/-- The twelve opcode classes and Invalid (R2, R70). -/
inductive IClass where
  | halt | nop | conditionalMove | immediateToRegister | registerToMemory | memoryToRegister
  | arithmeticOp | jump | call | ret | push | pop | invalid
deriving DecidableEq, Repr

/-- R70: the class of the high nibble of the first byte; 0xC..0xF are Invalid. -/
def IClass.ofNibble (n : Nibble) : IClass :=
  match n.toNat with
  | 0 => .halt
  | 1 => .nop
  | 2 => .conditionalMove
  | 3 => .immediateToRegister
  | 4 => .registerToMemory
  | 5 => .memoryToRegister
  | 6 => .arithmeticOp
  | 7 => .jump
  | 8 => .call
  | 9 => .ret
  | 10 => .push
  | 11 => .pop
  | _ => .invalid

/-- The 4-bit class number (R66, R70); Invalid has none. -/
def IClass.number : IClass → Option Nibble
  | .halt => some 0x0#4
  | .nop => some 0x1#4
  | .conditionalMove => some 0x2#4
  | .immediateToRegister => some 0x3#4
  | .registerToMemory => some 0x4#4
  | .memoryToRegister => some 0x5#4
  | .arithmeticOp => some 0x6#4
  | .jump => some 0x7#4
  | .call => some 0x8#4
  | .ret => some 0x9#4
  | .push => some 0xA#4
  | .pop => some 0xB#4
  | .invalid => none

/-- The four layouts, named by their length (R65). -/
inductive Format where
  | f1 | f2 | f9 | f10
deriving DecidableEq, Repr

/-- R65, R66: the bytes of a format. -/
def Format.length : Format → Nat
  | .f1 => 1
  | .f2 => 2
  | .f9 => 9
  | .f10 => 10

/-- R111: `has_reg`. -/
def Format.hasReg : Format → Bool
  | .f1 | .f9 => false
  | .f2 | .f10 => true

/-- R111: `imm_off` when `has_imm`, and none otherwise. -/
def Format.immOff : Format → Option Nat
  | .f1 | .f2 => none
  | .f9 => some 1
  | .f10 => some 2

/-- One entry of the dispatch table (R81); its length is its format's. A format without a register byte has
no register classes. -/
structure Entry where
  fmt     : Format
  ifunMax : Nat
  rAClass : Option RegClass
  rBClass : Option RegClass
deriving DecidableEq, Repr

/-- R72: the register classes of MemoryToRegister, by `MRMOV_NIBBLES`. -/
def Params.mrmovClasses (p : Params) : RegClass × RegClass :=
  match p.mrmovNibbles with
  | .sameAsRmmov => (.reg, .regOrNone)
  | .swapped => (.regOrNone, .reg)

/-- The dispatch table of R81; Invalid has no entry ("length is not computed", R66). -/
def Params.dispatch (p : Params) : IClass → Option Entry
  | .halt => some ⟨.f1, 0, none, none⟩
  | .nop => some ⟨.f1, 0, none, none⟩
  | .conditionalMove => some ⟨.f2, 6, some .reg, some .reg⟩
  | .immediateToRegister => some ⟨.f10, 0, some .none, some .reg⟩
  | .registerToMemory => some ⟨.f10, 0, some .reg, some .regOrNone⟩
  | .memoryToRegister => some ⟨.f10, 0, some p.mrmovClasses.1, some p.mrmovClasses.2⟩
  | .arithmeticOp => some ⟨.f2, 3, some .reg, some .reg⟩
  | .jump => some ⟨.f9, 6, none, none⟩
  | .call => some ⟨.f9, 0, none, none⟩
  | .ret => some ⟨.f1, 0, none, none⟩
  | .push => some ⟨.f2, 0, some .reg, some .none⟩
  | .pop => some ⟨.f2, 0, some .reg, some .none⟩
  | .invalid => none

/-- Whether an optional class admits an identifier; a format without a register byte admits whatever stands
there (R111). -/
def admitsIn (c : Option RegClass) (r : RegId) : Bool :=
  match c with
  | none => true
  | some c => c.admits r

/-- R111: `valid`, the validation predicate of a table entry. -/
def Entry.valid (e : Entry) (ifun : Nibble) (rA rB : RegId) : Bool :=
  decide (ifun.toNat ≤ e.ifunMax) && admitsIn e.rAClass rA && admitsIn e.rBClass rB

/-- R111: `rA = has_reg ? byte1[7:4] : RNONE`. -/
def Entry.rA (e : Entry) (b1 : Byte) : RegId :=
  if e.fmt.hasReg then RegId.ofNibble (hiNibble b1) else .rnone

/-- R111: `rB = has_reg ? byte1[3:0] : RNONE`. -/
def Entry.rB (e : Entry) (b1 : Byte) : RegId :=
  if e.fmt.hasReg then RegId.ofNibble (loNibble b1) else .rnone

/-- R111: `valC = has_imm ? some(LE64(..)) : none`, for the instruction at `a`. -/
def Entry.valC (e : Entry) (M : Contents) (a : Nat) : Option Word64 :=
  e.fmt.immOff.map fun off => immediateAt M (a + off)

/-- The instruction that a class and its fields name, by the subfunction tables R75 to R77 and the list
R78; none where no row of the opcode table has them. -/
def Instr.ofFields : IClass → Nibble → RegId → RegId → Option Word64 → Option Instr
  | .halt, f, _, _, _ => match f.toNat with
    | 0 => some .halt
    | _ => none
  | .nop, f, _, _, _ => match f.toNat with
    | 0 => some .nop
    | _ => none
  | .conditionalMove, f, rA, rB, _ => match f.toNat with
    | 0 => some (.rrmovq rA rB)
    | 1 => some (.cmovle rA rB)
    | 2 => some (.cmovl rA rB)
    | 3 => some (.cmove rA rB)
    | 4 => some (.cmovne rA rB)
    | 5 => some (.cmovge rA rB)
    | 6 => some (.cmovg rA rB)
    | _ => none
  | .immediateToRegister, f, _, rB, valC => match f.toNat with
    | 0 => valC.map (.irmovq rB)
    | _ => none
  | .registerToMemory, f, rA, rB, valC => match f.toNat with
    | 0 => valC.map (.rmmovq rA rB)
    | _ => none
  | .memoryToRegister, f, rA, rB, valC => match f.toNat with
    | 0 => valC.map (.mrmovq rA rB)
    | _ => none
  | .arithmeticOp, f, rA, rB, _ => match f.toNat with
    | 0 => some (.addq rA rB)
    | 1 => some (.subq rA rB)
    | 2 => some (.andq rA rB)
    | 3 => some (.xorq rA rB)
    | _ => none
  | .jump, f, _, _, valC => match f.toNat with
    | 0 => valC.map .jmp
    | 1 => valC.map .jle
    | 2 => valC.map .jl
    | 3 => valC.map .je
    | 4 => valC.map .jne
    | 5 => valC.map .jge
    | 6 => valC.map .jg
    | _ => none
  | .call, f, _, _, valC => match f.toNat with
    | 0 => valC.map .call
    | _ => none
  | .ret, f, _, _, _ => match f.toNat with
    | 0 => some .ret
    | _ => none
  | .push, f, rA, _, _ => match f.toNat with
    | 0 => some (.pushq rA)
    | _ => none
  | .pop, f, rA, _, _ => match f.toNat with
    | 0 => some (.popq rA)
    | _ => none
  | .invalid, _, _, _, _ => none

/-- The class of an instruction (R78). -/
def Instr.iclass : Instr → IClass
  | .halt => .halt
  | .nop => .nop
  | .rrmovq _ _ | .cmovle _ _ | .cmovl _ _ | .cmove _ _ | .cmovne _ _ | .cmovge _ _ | .cmovg _ _ =>
    .conditionalMove
  | .irmovq _ _ => .immediateToRegister
  | .rmmovq _ _ _ => .registerToMemory
  | .mrmovq _ _ _ => .memoryToRegister
  | .addq _ _ | .subq _ _ | .andq _ _ | .xorq _ _ => .arithmeticOp
  | .jmp _ | .jle _ | .jl _ | .je _ | .jne _ | .jge _ | .jg _ => .jump
  | .call _ => .call
  | .ret => .ret
  | .pushq _ => .push
  | .popq _ => .pop

/-- The subfunction of an instruction (R75, R76, R77; 0 in the other classes, R71). -/
def Instr.ifun : Instr → Nibble
  | .halt | .nop | .irmovq _ _ | .rmmovq _ _ _ | .mrmovq _ _ _ | .call _ | .ret | .pushq _ | .popq _ => 0#4
  | .rrmovq _ _ | .addq _ _ | .jmp _ => 0#4
  | .cmovle _ _ | .subq _ _ | .jle _ => 1#4
  | .cmovl _ _ | .andq _ _ | .jl _ => 2#4
  | .cmove _ _ | .xorq _ _ | .je _ => 3#4
  | .cmovne _ _ | .jne _ => 4#4
  | .cmovge _ _ | .jge _ => 5#4
  | .cmovg _ _ | .jg _ => 6#4

/-- The first nibble's identifier, `RNONE` where the format has no register byte (R31) or the position
admits the sentinel only (R72). -/
def Instr.rA : Instr → RegId
  | .halt | .nop | .ret | .irmovq _ _ | .call _ => .rnone
  | .jmp _ | .jle _ | .jl _ | .je _ | .jne _ | .jge _ | .jg _ => .rnone
  | .rrmovq rA _ | .cmovle rA _ | .cmovl rA _ | .cmove rA _ | .cmovne rA _ | .cmovge rA _ | .cmovg rA _ => rA
  | .rmmovq rA _ _ | .mrmovq rA _ _ => rA
  | .addq rA _ | .subq rA _ | .andq rA _ | .xorq rA _ => rA
  | .pushq rA | .popq rA => rA

/-- The second nibble's identifier, as `Instr.rA`. -/
def Instr.rB : Instr → RegId
  | .halt | .nop | .ret | .call _ | .pushq _ | .popq _ => .rnone
  | .jmp _ | .jle _ | .jl _ | .je _ | .jne _ | .jge _ | .jg _ => .rnone
  | .rrmovq _ rB | .cmovle _ rB | .cmovl _ rB | .cmove _ rB | .cmovne _ rB | .cmovge _ rB | .cmovg _ rB => rB
  | .irmovq rB _ | .rmmovq _ rB _ | .mrmovq _ rB _ => rB
  | .addq _ rB | .subq _ rB | .andq _ rB | .xorq _ rB => rB

/-- The immediate, present only in the five classes that carry one (R32). -/
def Instr.valC : Instr → Option Word64
  | .irmovq _ c | .rmmovq _ _ c | .mrmovq _ _ c | .call c => some c
  | .jmp c | .jle c | .jl c | .je c | .jne c | .jge c | .jg c => some c
  | .halt | .nop | .ret | .pushq _ | .popq _ => none
  | .rrmovq _ _ | .cmovle _ _ | .cmovl _ _ | .cmove _ _ | .cmovne _ _ | .cmovge _ _ | .cmovg _ _ => none
  | .addq _ _ | .subq _ _ | .andq _ _ | .xorq _ _ => none

/-- The format of an instruction (R65). -/
def Instr.format : Instr → Format
  | .halt | .nop | .ret => .f1
  | .rrmovq _ _ | .cmovle _ _ | .cmovl _ _ | .cmove _ _ | .cmovne _ _ | .cmovge _ _ | .cmovg _ _ => .f2
  | .addq _ _ | .subq _ _ | .andq _ _ | .xorq _ _ | .pushq _ | .popq _ => .f2
  | .jmp _ | .jle _ | .jl _ | .je _ | .jne _ | .jge _ | .jg _ | .call _ => .f9
  | .irmovq _ _ | .rmmovq _ _ _ | .mrmovq _ _ _ => .f10

/-- The length `L` of an instruction (R66). -/
def Instr.length (i : Instr) : Nat := i.format.length

end Sys2Proof
end

