-- ==== Sys2Proof/Machine/Record.lean ====
section
/-! DEFINITION. The records a decode produces: the instruction record of R31, the failure record of R108, the
decode result of R12, and the port encoding of both (R100). -/

namespace Sys2Proof

/-- The decoded instruction record (R31). -/
structure Ins where
  icode : IClass
  ifun  : BitVec 8
  rA    : RegId
  rB    : RegId
  valC  : Option Word64
  len   : Nat
  valP  : Nat
deriving DecidableEq, Repr

/-- The record of instruction `i` decoded at address `a` (R31, R109): `valP` is `a + L`. -/
def Instr.record (i : Instr) (a : Nat) : Ins :=
  { icode := i.iclass
    ifun := i.ifun.setWidth 8
    rA := i.rA
    rB := i.rB
    valC := i.valC
    len := i.length
    valP := a + i.length }

/-- The two faults (R210). -/
inductive FaultKind where
  | invalidAddress
  | invalidInstruction
deriving DecidableEq, Repr

/-- The failure record `Fail{kind, addr, raw}` (R108). -/
structure Failure where
  kind : FaultKind
  addr : Nat
  raw  : Option Byte
deriving DecidableEq, Repr

/-- The decode result (R12): `Ok(ins)` or `Fail{...}`, never both. -/
inductive DecodeResult where
  | ok (ins : Ins)
  | fail (f : Failure)
deriving DecidableEq, Repr

/-- R210: the `fault_kind` port. -/
def FaultKind.port : FaultKind → BitVec 1
  | .invalidAddress => 0#1
  | .invalidInstruction => 1#1

/-- The ports that carry information when `ok = 1` (R100); `valC` is present exactly when `valC_valid = 1`. -/
structure OkPorts where
  icode     : Option Nibble
  ifun      : BitVec 8
  rA        : Nibble
  rB        : Nibble
  valCValid : BitVec 1
  valC      : Option Word64
  len       : BitVec 4
  valP      : Nat
deriving DecidableEq, Repr

/-- The ports that carry information when `ok = 0` (R100); `rawByte` is present exactly when
`raw_valid = 1`. -/
structure FailPorts where
  faultKind : BitVec 1
  faultAddr : Nat
  rawValid  : BitVec 1
  rawByte   : Option Byte
deriving DecidableEq, Repr

/-- The output ports (R100): ports that carry no information for the value of `ok` are absent. -/
inductive Ports where
  | ok1 (o : OkPorts)
  | ok0 (o : FailPorts)
deriving DecidableEq, Repr

/-- R100, R210, R22: the ports of a decode result. -/
def DecodeResult.ports : DecodeResult → Ports
  | .ok ins => .ok1
    { icode := ins.icode.number
      ifun := ins.ifun
      rA := ins.rA.toNibble
      rB := ins.rB.toNibble
      valCValid := BitVec.ofBool ins.valC.isSome
      valC := ins.valC
      len := BitVec.ofNat 4 ins.len
      valP := ins.valP }
  | .fail f => .ok0
    { faultKind := f.kind.port
      faultAddr := f.addr
      rawValid := BitVec.ofBool f.raw.isSome
      rawByte := f.raw }

end Sys2Proof
end

