-- ==== Sys2Proof/WellFormed.lean ====
section
/-! DEFINITION. Which instructions are well formed: every register operand is inside the class of its position
(R72). -/

namespace Sys2Proof

/-- R72, per instruction. The positions of a class that admits both kinds (`RegOrNone`) and the immediate
(all 2^64 values are legal, R73) need no check. -/
def Instr.wellFormed (p : Params) : Instr → Bool
  | .halt | .nop | .ret | .call _ => true
  | .jmp _ | .jle _ | .jl _ | .je _ | .jne _ | .jge _ | .jg _ => true
  | .rrmovq rA rB | .cmovle rA rB | .cmovl rA rB | .cmove rA rB | .cmovne rA rB | .cmovge rA rB | .cmovg rA rB =>
    rA.ordinary && rB.ordinary
  | .irmovq rB _ => rB.ordinary
  | .rmmovq rA _ _ => rA.ordinary
  | .mrmovq rA rB _ =>
    match p.mrmovNibbles with
    | .sameAsRmmov => rA.ordinary
    | .swapped => rB.ordinary
  | .addq rA rB | .subq rA rB | .andq rA rB | .xorq rA rB => rA.ordinary && rB.ordinary
  | .pushq rA | .popq rA => rA.ordinary

end Sys2Proof
end

