-- ==== Sys2Proof/Decode.lean ====
section
/-! DEFINITION. The decoder, total on any contents and any address (R102, R103, R114), and the encoder, written
from the same tables (R65, R81). -/

namespace Sys2Proof

/-- What the decoder finds at an address: an instruction, or a failure (R12). -/
inductive Decoded where
  | instr (i : Instr)
  | failed (f : Failure)
deriving DecidableEq, Repr

/-- Steps 3 to 5 of R103 (`FieldsFirst`) or of R114 (`BoundsFirst`) for an instruction of length `len` at `a`
whose opcode byte was read: the first failure that holds. `immOff` is the offset of the immediate, if the
class has one, and `valid` the validation predicate of its fields. -/
def Params.firstFailure (p : Params) (a len : Nat) (immOff : Option Nat) (valid : Bool) :
    Option (FaultKind × Nat) :=
  match p.immCheckOrder with
  | .fieldsFirst =>
    if 2 ≤ len ∧ p.memSize ≤ a + 1 then some (.invalidAddress, a + 1)
    else if valid = false then some (.invalidInstruction, a)
    else match immOff with
      | none => none
      | some off => (p.firstOutside (a + off) immBytes).map fun x => (.invalidAddress, x)
  | .boundsFirst =>
    if 2 ≤ len ∧ p.memSize < a + len then some (.invalidAddress, max (a + 1) p.memSize)
    else if valid = false then some (.invalidInstruction, a)
    else none

/-- The decode procedure (R103, R114), up to the choice of the instruction: step 1 reads the opcode byte, step
2 finds its class's table entry, steps 3 to 5 are `Params.firstFailure`, step 6 names the instruction. A
class and fields that no row of the opcode table has are InvalidInstruction (R79). -/
def decodeInstr (p : Params) (M : Contents) (a : Nat) : Decoded :=
  if p.memSize ≤ a then .failed ⟨.invalidAddress, a, none⟩
  else
    match p.dispatch (IClass.ofNibble (hiNibble (M a))) with
    | none => .failed ⟨.invalidInstruction, a, some (M a)⟩
    | some e =>
      match p.firstFailure a e.fmt.length e.fmt.immOff
          (e.valid (loNibble (M a)) (e.rA (M (a + 1))) (e.rB (M (a + 1)))) with
      | some (k, x) => .failed ⟨k, x, some (M a)⟩
      | none =>
        match Instr.ofFields (IClass.ofNibble (hiNibble (M a))) (loNibble (M a)) (e.rA (M (a + 1)))
            (e.rB (M (a + 1))) (e.valC M a) with
        | some i => .instr i
        | none => .failed ⟨.invalidInstruction, a, some (M a)⟩

/-- The decoder's contract, "`decode(space, address) -> Instruction | Failure`" (R100), with the record of
R31. -/
def decode (p : Params) (M : Contents) (a : Nat) : DecodeResult :=
  match decodeInstr p M a with
  | .instr i => .ok (i.record a)
  | .failed f => .fail f

/-- R78: the first byte of an instruction. -/
def Instr.opcodeByte : Instr → Byte
  | .halt => 0x00#8
  | .nop => 0x10#8
  | .rrmovq _ _ => 0x20#8
  | .cmovle _ _ => 0x21#8
  | .cmovl _ _ => 0x22#8
  | .cmove _ _ => 0x23#8
  | .cmovne _ _ => 0x24#8
  | .cmovge _ _ => 0x25#8
  | .cmovg _ _ => 0x26#8
  | .irmovq _ _ => 0x30#8
  | .rmmovq _ _ _ => 0x40#8
  | .mrmovq _ _ _ => 0x50#8
  | .addq _ _ => 0x60#8
  | .subq _ _ => 0x61#8
  | .andq _ _ => 0x62#8
  | .xorq _ _ => 0x63#8
  | .jmp _ => 0x70#8
  | .jle _ => 0x71#8
  | .jl _ => 0x72#8
  | .je _ => 0x73#8
  | .jne _ => 0x74#8
  | .jge _ => 0x75#8
  | .jg _ => 0x76#8
  | .call _ => 0x80#8
  | .ret => 0x90#8
  | .pushq _ => 0xA0#8
  | .popq _ => 0xB0#8

/-- The register byte of an instruction (R69). -/
def Instr.registerByte (i : Instr) : Byte := byteOf i.rA.toNibble i.rB.toNibble

/-- The bytes of an instruction, in address order (R65). -/
def encode (i : Instr) : List Byte :=
  i.opcodeByte ::
    ((if i.format.hasReg then [i.registerByte] else []) ++
      match i.valC with
      | none => []
      | some c => immediateBytes c)

/-- The contents of a space that holds the bits of `w` from address 0 on, its first byte in bits 7..0: the
first `nbits` bits of `w`, and 0 above. -/
def tableContents (nbits w : Nat) : Contents := fun a => BitVec.ofNat 8 ((w % 2 ^ nbits) >>> (8 * a))

/-- The instruction the decoder reads, with the default parameters, from an instruction whose bits are `w`,
numbered as spec/opcode_table.json numbers them. -/
def decodeTableWord (nbits w : Nat) : Option Instr :=
  match decodeInstr .default (tableContents nbits w) 0 with
  | .instr i => some i
  | .failed _ => none

end Sys2Proof
end

