-- ==== Sys2Proof/Machine/Memory.lean ====
section
/-! DEFINITION. The AddressSpace as plain data: the bytes that are not 0, by rising address. An address that is
not listed reads as 0, since the space is zero-initialised (R45, R231). The block itself never writes it
(R47); the writes here are the loader's (R232). -/

namespace Sys2Proof.Machine

/-- The AddressSpace's non-zero bytes (R45). -/
abbrev Memory := List Host.Cell

/-- R231: what a byte that nothing was loaded into holds. -/
def unlistedByte : Byte := 0#8

/-- The byte at an address (R56): the listed one, or `unlistedByte`. -/
def Memory.byteAt : Memory → Contents
  | [], _ => unlistedByte
  | (x, v) :: rest, a => if a = x then v else Memory.byteAt rest a

/-- The canonical form: addresses strictly rising, and no entry equal to what an unlisted address reads as. -/
def Memory.wf : Memory → Bool
  | [] => true
  | (x, v) :: rest => (v != unlistedByte) && rest.all (fun c => decide (x < c.1)) && Memory.wf rest

/-- Put `b` at the head of a memory whose addresses are all above `a`. -/
def Memory.putFront (a : Nat) (b : Byte) (m : Memory) : Memory :=
  if b = unlistedByte then m else (a, b) :: m

/-- The loader's write of one byte. -/
def Memory.store : Memory → Nat → Byte → Memory
  | [], a, b => Memory.putFront a b []
  | (x, v) :: rest, a, b =>
    if a < x then Memory.putFront a b ((x, v) :: rest)
    else if a = x then Memory.putFront a b rest
    else (x, v) :: Memory.store rest a b

/-- The loader's write of consecutive bytes from `a` on. -/
def Memory.storeBytes (m : Memory) (a : Nat) : List Byte → Memory
  | [] => m
  | b :: bs => Memory.storeBytes (m.store a b) (a + 1) bs

/-- Every listed address is inside a space of `n` bytes (R45). -/
def Memory.within (m : Memory) (n : Nat) : Bool := m.all fun c => decide (c.1 < n)

end Sys2Proof.Machine
end

