-- ==== Sys2Proof/Machine/State.lean ====
section
/-! DEFINITION. The state of the machine: the walker's state (R190), the parameters of its step that the loader
hands over (R16, R232), and the implementation parameters (R9), all plain data; and why a step can stop. -/

namespace Sys2Proof.Machine

/-- The status `Stat` (R22). -/
inductive Stat where
  | running
  | halted
  | invalidAddress
  | invalidInstruction
deriving DecidableEq, Repr

/-- The walker's phase (R190). -/
inductive Phase where
  | walking
  | done
  | aborted (k : FaultKind)
deriving DecidableEq, Repr

/-- A code segment's descriptor (R190, R232). -/
structure Segment where
  virtualStart : Addr16
  size         : Addr16
deriving DecidableEq, Repr

/-- The walker's output events (R200). -/
inductive Event where
  | label (addr : Nat)
  | line (addr : Nat) (bytes : List Byte) (ins : Ins)
  | diagnostic (kind : FaultKind) (pc addr : Nat) (raw : Option Byte)
deriving DecidableEq, Repr

/-- One walk: the segment walked, and the walker's state `W = {pc, Stat, phase, out}` (R190). The program
counter is a natural number (R21). -/
structure Walk where
  seg   : Segment
  pc    : Nat
  stat  : Stat
  phase : Phase
  out   : List Event
deriving DecidableEq, Repr

/-- The state of the block and the parameters of its step. DESIGN CHOICE, log entries 1 and 2: the parameters
(R9, R16) stand here because a step takes one argument. DESIGN CHOICE, log entry 6: the walks that have ended
are kept, since a run is the sequence of its walks (R201, R202). -/
structure State where
  params     : Params
  mem        : Memory
  entryPoint : Addr16
  walk       : Walk
  pending    : List Segment
  finished   : List Walk
deriving DecidableEq, Repr

/-- Why no step is enabled (R202). DESIGN CHOICE, log entry 5: the end of a run is a stop under a name of its
own. A decode failure is none of these: its abort is a next state (R215). -/
inductive Fault where
  /-- Raised by `step` when the walk is Done and no code segment is left (R202, normal completion). Safe: the
  spec enables no step there. -/
  | runComplete
  /-- Raised by `step` when the walk has aborted (R196, R202). Safe: the spec enables no step there. -/
  | runAborted (k : FaultKind)
deriving DecidableEq, Repr

/-- What the model refuses. -/
inductive Refusal where
  /-- Raised by `exec` for an instruction without a meaning; no arm raises it. Safe. -/
  | notModelled (mnemonic : String)
  /-- Raised by `boot`: `MEM_SIZE` outside 1..65536 (R9). Safe: outside the rules. -/
  | parameterOutsideRange
  /-- Raised by `boot`: a segment holds another number of bytes than its descriptor says (log entry 13). Safe:
  the loader's matter. -/
  | segmentSizeMismatch
  /-- Raised by `boot`: a segment extends past the AddressSpace (R54, UB8). Safe: refused at the loader. DESIGN
  CHOICE, log entry 13: so is a segment of size 0 that starts above `MEM_SIZE`. -/
  | segmentOutsideSpace
  /-- Raised by `boot`: two segments overlap (R54, UB8). Safe: refused at the loader. -/
  | overlappingSegments
deriving DecidableEq, Repr

/-- R191: the state at the start of a walk. -/
def Walk.start (seg : Segment) : Walk :=
  { seg := seg, pc := seg.virtualStart.toNat, stat := .running, phase := .walking, out := [] }

/-- R34, R230: every field at its reset value: the parameters at their defaults (R9), every byte 0, and a walk
at its start. DESIGN CHOICE, log entry 3: before the loader has run, the segment is empty at address 0, the
entry point is 0 and no segment is pending. -/
def State.reset : State :=
  { params := .default
    mem := []
    entryPoint := 0#16
    walk := .start { virtualStart := 0#16, size := 0#16 }
    pending := []
    finished := [] }

end Sys2Proof.Machine
end

