-- ==== Sys2Proof/Machine/Flags.lean ====
section
/-! DEFINITION. The status. The block has no flags and no condition codes (R28); the one status register is
`Stat` (R22, R29): its encoding, and its update by a decode result (R23). -/

namespace Sys2Proof.Machine

/-- R22: the 2-bit output. -/
def Stat.code : Stat → BitVec 2
  | .running => 0b00#2
  | .halted => 0b01#2
  | .invalidAddress => 0b10#2
  | .invalidInstruction => 0b11#2

/-- R210: the status a fault writes. -/
def Stat.ofFault : FaultKind → Stat
  | .invalidAddress => .invalidAddress
  | .invalidInstruction => .invalidInstruction

/-- R23: a successful Halt writes Halted; any other instruction leaves `Stat` unchanged. -/
def Stat.afterOk (st : Stat) (icode : IClass) : Stat :=
  if icode = .halt then .halted else st

/-- R197: a successful Halt ends the walk only when `HALT_STOPS_WALK` is true. -/
def Phase.afterOk (ph : Phase) (p : Params) (icode : IClass) : Phase :=
  if p.haltStopsWalk && (icode = .halt) then .done else ph

end Sys2Proof.Machine
end

