-- ==== Sys2Proof/Machine/Ops.lean ====
section
/-! DEFINITION. The operations the walker's step and the meanings share: emitting events, taking a fault,
completing an instruction, starting a walk, and the loader's boot. -/

namespace Sys2Proof.Machine

/-- The AddressSpace as the decoder reads it (R100). -/
def State.contents (s : State) : Contents := s.mem.byteAt

/-- R190, D11: `segEnd = virtualStart + size`, without wrap-around. -/
def Segment.segEnd (g : Segment) : Nat := g.virtualStart.toNat + g.size.toNat

/-- Append an event to the walk's output (R190). -/
def State.emit (e : Event) (s : State) : State :=
  { s with walk := { s.walk with out := s.walk.out ++ [e] } }

/-- R198: the label, emitted exactly when `pc = entryPoint`. -/
def State.emitLabel (s : State) : State :=
  if s.walk.pc = s.entryPoint.toNat then s.emit (.label s.walk.pc) else s

/-- Taking a fault (R195, R215): `Stat` takes the kind, the walk aborts, one diagnostic is emitted, `pc` keeps
the address of the failing instruction. There is no vector, no saved register and no return from it
(R215, R216). -/
def State.takeFault (f : Failure) (s : State) : State :=
  { s with walk :=
    { s.walk with
      stat := .ofFault f.kind
      phase := .aborted f.kind
      out := s.walk.out ++ [.diagnostic f.kind s.walk.pc f.addr f.raw] } }

/-- The effect of a successfully decoded instruction (R194, R192): the listing line is emitted, `Stat` is
updated (R23), `pc` goes to the address after the instruction, whatever its class (R170), and a Halt may end
the walk (R197). -/
def State.retire (i : Instr) (s : State) : State :=
  { s with walk :=
    { s.walk with
      pc := s.walk.pc + i.length
      stat := s.walk.stat.afterOk i.iclass
      phase := s.walk.phase.afterOk s.params i.iclass
      out := s.walk.out ++
        [.line s.walk.pc (bytesAt s.contents s.walk.pc i.length) (i.record s.walk.pc)] } }

/-- The failure that decoding instruction `i` at `a` reports, if there is one (R103, R114, R112): its bytes
leave the AddressSpace, or an operand is outside its position's class. DEDUCED, log entry 7: each
instruction's rule gives these checks as part of it, so its meaning makes them. -/
def Instr.failure (p : Params) (M : Contents) (a : Nat) (i : Instr) : Option Failure :=
  if p.memSize ≤ a then some ⟨.invalidAddress, a, none⟩
  else (p.firstFailure a i.length i.format.immOff (i.wellFormed p)).map fun (k, x) => ⟨k, x, some (M a)⟩

/-- What every instruction's rule says: its exceptions are taken, and otherwise the walker applies its
effect. -/
def State.complete (i : Instr) (s : State) : State :=
  match Instr.failure s.params s.contents s.walk.pc i with
  | some f => s.takeFault f
  | none => s.retire i

/-- R193: the walk ends normally when `pc >= segEnd`. -/
def State.atEnd (s : State) : Bool := s.walk.seg.segEnd ≤ s.walk.pc

/-- R193: the phase becomes Done. -/
def State.endWalk (s : State) : State := { s with walk := { s.walk with phase := .done } }

/-- The decode the walker requests (R192). -/
def State.decodeHere (s : State) : Decoded := decodeInstr s.params s.contents s.walk.pc

/-- R191, R201: the next code segment's walk starts afresh, and the ended walk is kept; none when no segment is
left. -/
def State.nextWalk (s : State) : Option State :=
  match s.pending with
  | [] => none
  | seg :: rest =>
    some { s with walk := .start seg, pending := rest, finished := s.finished ++ [s.walk] }

/-- The types of a container's segments (R45, R201). -/
inductive SegKind where
  | code
  | data
  | stack
deriving DecidableEq, Repr

/-- A segment as the loader has it: its type, its descriptor and its bytes (R53, R232). Its permission flags
are checked by nobody in the block (R55). -/
structure LoadSegment where
  kind  : SegKind
  desc  : Segment
  bytes : List Byte
deriving DecidableEq, Repr

/-- Two segments share no address. -/
def LoadSegment.disjoint (g h : LoadSegment) : Bool :=
  decide (g.desc.segEnd ≤ h.desc.virtualStart.toNat) || decide (h.desc.segEnd ≤ g.desc.virtualStart.toNat)
    || g.desc.size == 0#16 || h.desc.size == 0#16

/-- No two segments of an image overlap. -/
def disjointSegments : List LoadSegment → Bool
  | [] => true
  | g :: rest => rest.all g.disjoint && disjointSegments rest

/-- R232 (2): every segment's bytes are copied to its `virtualStart`. -/
def loadSegments : Memory → List LoadSegment → Memory
  | m, [] => m
  | m, g :: rest => loadSegments (m.storeBytes g.desc.virtualStart.toNat g.bytes) rest

/-- R201: the descriptors of the Code segments, in loader order. -/
def codeSegments (image : List LoadSegment) : List Segment :=
  (image.filter fun g => g.kind = .code).map (·.desc)

/-- R232 (3), (4): the state at the start of the first walk; with no Code segment the run is final at once
(log entry 14). -/
def bootState (p : Params) (m : Memory) (entryPoint : Addr16) (codes : List Segment) : State :=
  match codes with
  | [] => { State.reset with params := p, mem := m, entryPoint := entryPoint,
                             walk := { State.reset.walk with phase := .done } }
  | seg :: rest => { State.reset with params := p, mem := m, entryPoint := entryPoint,
                                      walk := .start seg, pending := rest }

/-- R232: what the environment does before the block's rules hold: a zero-filled AddressSpace, every segment
copied, the entry point and the Code descriptors handed over, the first walk started. Malformed images are
refused (R54, UB8; log entry 13). DESIGN CHOICE, log entry 13: a segment of size 0 whose `virtualStart` is above
`MEM_SIZE` is refused as extending past the space, though it covers no byte; the spec does not say whether UB8
means it. -/
def boot (p : Params) (image : List LoadSegment) (entryPoint : Addr16) : Host.Outcome State Fault Refusal :=
  if p.wf = false then .refused .parameterOutsideRange
  else if image.any (fun g => g.bytes.length ≠ g.desc.size.toNat) then .refused .segmentSizeMismatch
  else if image.any (fun g => p.memSize < g.desc.segEnd) then .refused .segmentOutsideSpace
  else if disjointSegments image = false then .refused .overlappingSegments
  else .next (bootState p (loadSegments [] image) entryPoint (codeSegments image))

end Sys2Proof.Machine
end

