-- ==== Sys2Proof/Machine/Arith.lean ====
section
/-! DEFINITION. ArithmeticOp (R150 to R154). The block computes no result and no flag (R7, R28). -/

namespace Sys2Proof.Machine

/-- R151, with R150: `pc` advances by 2. -/
def execAddq (rA rB : RegId) (s : State) : Host.Outcome State Fault Refusal :=
  .next (s.complete (.addq rA rB))

/-- R152, with R150: `pc` advances by 2. -/
def execSubq (rA rB : RegId) (s : State) : Host.Outcome State Fault Refusal :=
  .next (s.complete (.subq rA rB))

/-- R153, with R150: `pc` advances by 2. -/
def execAndq (rA rB : RegId) (s : State) : Host.Outcome State Fault Refusal :=
  .next (s.complete (.andq rA rB))

/-- R154, with R150: `pc` advances by 2. -/
def execXorq (rA rB : RegId) (s : State) : Host.Outcome State Fault Refusal :=
  .next (s.complete (.xorq rA rB))

end Sys2Proof.Machine
end

