-- ==== Sys2Proof/Machine/Control.lean ====
section
/-! DEFINITION. Jump, Call and Return (R160 to R170). The block transfers no control: `pc` goes to the address after the
instruction, whatever its target (R170). -/

namespace Sys2Proof.Machine

/-- R161, with R160: `pc` advances by 9; the target is not checked and not followed. -/
def execJmp (valC : Word64) (s : State) : Host.Outcome State Fault Refusal :=
  .next (s.complete (.jmp valC))

/-- R162, with R160: `pc` advances by 9; the target is not checked and not followed. -/
def execJle (valC : Word64) (s : State) : Host.Outcome State Fault Refusal :=
  .next (s.complete (.jle valC))

/-- R163, with R160: `pc` advances by 9; the target is not checked and not followed. -/
def execJl (valC : Word64) (s : State) : Host.Outcome State Fault Refusal :=
  .next (s.complete (.jl valC))

/-- R164, with R160: `pc` advances by 9; the target is not checked and not followed. -/
def execJe (valC : Word64) (s : State) : Host.Outcome State Fault Refusal :=
  .next (s.complete (.je valC))

/-- R165, with R160: `pc` advances by 9; the target is not checked and not followed. -/
def execJne (valC : Word64) (s : State) : Host.Outcome State Fault Refusal :=
  .next (s.complete (.jne valC))

/-- R166, with R160: `pc` advances by 9; the target is not checked and not followed. -/
def execJge (valC : Word64) (s : State) : Host.Outcome State Fault Refusal :=
  .next (s.complete (.jge valC))

/-- R167, with R160: `pc` advances by 9; the target is not checked and not followed. -/
def execJg (valC : Word64) (s : State) : Host.Outcome State Fault Refusal :=
  .next (s.complete (.jg valC))

/-- R168: `pc` advances by 9; no return address is written. -/
def execCall (valC : Word64) (s : State) : Host.Outcome State Fault Refusal :=
  .next (s.complete (.call valC))

/-- R169: `pc` advances by 1; no stack is read. -/
def execRet (s : State) : Host.Outcome State Fault Refusal :=
  .next (s.complete .ret)

end Sys2Proof.Machine
end

