-- ==== Sys2Proof/Machine/Halt.lean ====
section
/-! DEFINITION. The Halt and Nop classes (R125 to R127): only `halt` changes the CpuState beyond the advance of `pc`. -/

namespace Sys2Proof.Machine

/-- R125: `Stat` becomes Halted and `pc` advances by 1; the walk goes on unless `HALT_STOPS_WALK` (R197). -/
def execHalt (s : State) : Host.Outcome State Fault Refusal :=
  .next (s.complete .halt)

/-- R126: `pc` advances by 1. -/
def execNop (s : State) : Host.Outcome State Fault Refusal :=
  .next (s.complete .nop)

end Sys2Proof.Machine
end

