-- ==== Sys2Proof/Machine/Moves.lean ====
section
/-! DEFINITION. The moves (R130 to R140). Nothing is moved: the block holds no register and no memory value (R7), and no
condition is evaluated (R28). -/

namespace Sys2Proof.Machine

/-- R131, with R130: `pc` advances by 2. -/
def execRrmovq (rA rB : RegId) (s : State) : Host.Outcome State Fault Refusal :=
  .next (s.complete (.rrmovq rA rB))

/-- R132, with R130: `pc` advances by 2. -/
def execCmovle (rA rB : RegId) (s : State) : Host.Outcome State Fault Refusal :=
  .next (s.complete (.cmovle rA rB))

/-- R133, with R130: `pc` advances by 2. -/
def execCmovl (rA rB : RegId) (s : State) : Host.Outcome State Fault Refusal :=
  .next (s.complete (.cmovl rA rB))

/-- R134, with R130: `pc` advances by 2. -/
def execCmove (rA rB : RegId) (s : State) : Host.Outcome State Fault Refusal :=
  .next (s.complete (.cmove rA rB))

/-- R135, with R130: `pc` advances by 2. -/
def execCmovne (rA rB : RegId) (s : State) : Host.Outcome State Fault Refusal :=
  .next (s.complete (.cmovne rA rB))

/-- R136, with R130: `pc` advances by 2. -/
def execCmovge (rA rB : RegId) (s : State) : Host.Outcome State Fault Refusal :=
  .next (s.complete (.cmovge rA rB))

/-- R137, with R130: `pc` advances by 2. -/
def execCmovg (rA rB : RegId) (s : State) : Host.Outcome State Fault Refusal :=
  .next (s.complete (.cmovg rA rB))

/-- R138: `pc` advances by 10; the immediate is in the record. -/
def execIrmovq (rB : RegId) (valC : Word64) (s : State) : Host.Outcome State Fault Refusal :=
  .next (s.complete (.irmovq rB valC))

/-- R139: `pc` advances by 10; no memory is written (R47). -/
def execRmmovq (rA rB : RegId) (valC : Word64) (s : State) : Host.Outcome State Fault Refusal :=
  .next (s.complete (.rmmovq rA rB valC))

/-- R140: `pc` advances by 10; no memory is read beyond the instruction's own bytes. -/
def execMrmovq (rA rB : RegId) (valC : Word64) (s : State) : Host.Outcome State Fault Refusal :=
  .next (s.complete (.mrmovq rA rB valC))

end Sys2Proof.Machine
end

