-- ==== Sys2Proof/Machine/Stack.lean ====
section
/-! DEFINITION. Push and Pop (R180, R181). No stack exists in the block and no memory is accessed (R7). -/

namespace Sys2Proof.Machine

/-- R180: `pc` advances by 2. -/
def execPushq (rA : RegId) (s : State) : Host.Outcome State Fault Refusal :=
  .next (s.complete (.pushq rA))

/-- R181: `pc` advances by 2. -/
def execPopq (rA : RegId) (s : State) : Host.Outcome State Fault Refusal :=
  .next (s.complete (.popq rA))

end Sys2Proof.Machine
end

