-- ==== Sys2Proof/Machine/Step.lean ====
section
/-! DEFINITION. The step: the walker's step (R192) while walking; the start of the next code segment's walk when
one has ended (R191, R201); no step once the run is final (R202). And where an instruction is placed so that
the next step runs it. -/

namespace Sys2Proof.Machine

/-- R192: the end test, then the label, then the decode, whose failure is taken and whose instruction has its
effect. -/
def walkStep (s : State) : Host.Outcome State Fault Refusal :=
  if s.atEnd then .next s.endWalk
  else
    match s.decodeHere with
    | .failed f => .next (s.emitLabel.takeFault f)
    | .instr i => exec i s.emitLabel

/-- One step of the run. A walk's start is a step of its own (log entry 6); a final run (R202) has none (log
entry 5). -/
def step (s : State) : Host.Outcome State Fault Refusal :=
  match s.walk.phase with
  | .walking => walkStep s
  | .done =>
    match s.nextWalk with
    | some t => .next t
    | none => .fault .runComplete
  | .aborted k => .fault (.runAborted k)

/-- The bytes of an instruction whose bits are `w`, the first byte in bits 7..0, up to the longest
instruction. -/
def tableBytes (nbits w : Nat) : List Byte := bytesAt (tableContents nbits w) 0 maxLen

/-- Where `withFetchWord` places an instruction: at the program counter, or at address 0 where its bytes would
leave the AddressSpace. -/
def State.fetchAddress (s : State) : Nat :=
  if s.walk.pc + maxLen ≤ s.params.memSize then s.walk.pc else 0

/-- The instruction whose bits are `w`, loaded where the next step fetches (log entry 17): its bytes at the
program counter, and a walk in progress over a segment that reaches past the program counter. -/
def State.withFetchWord (s : State) (nbits w : Nat) : State :=
  { s with
    mem := s.mem.storeBytes s.fetchAddress (tableBytes nbits w)
    walk :=
      { s.walk with
        seg := { virtualStart := BitVec.ofNat 16 s.fetchAddress, size := BitVec.ofNat 16 maxLen }
        pc := s.fetchAddress
        phase := .walking } }

end Sys2Proof.Machine
end

