-- ==== Sys2Proof/Machine/Assembly.lean ====
section
/-! DEFINITION. The assembler syntax (R90 to R94): the canonical rendering of an instruction. Text only: no rule
of the decoder or of the walker depends on it (R93). PRESUMED, log entry 10: the register names but `rcx`,
seven mnemonics and most operand orders are the spec's own general-knowledge entries. -/

namespace Sys2Proof

/-- R26: the name of a register; the sentinel has none. -/
def RegId.name : RegId → String
  | .rnone => ""
  | .reg n =>
    match n.val with
    | 0 => "rax"
    | 1 => "rcx"
    | 2 => "rdx"
    | 3 => "rbx"
    | 4 => "rsp"
    | 5 => "rbp"
    | 6 => "rsi"
    | 7 => "rdi"
    | 8 => "r8"
    | 9 => "r9"
    | 10 => "r10"
    | 11 => "r11"
    | 12 => "r12"
    | 13 => "r13"
    | _ => "r14"

/-- R90: `%<name>`; the sentinel renders as empty text. -/
def RegId.render : RegId → String
  | .rnone => ""
  | .reg n => "%" ++ (RegId.reg n).name

/-- One lowercase hexadecimal digit. -/
def hexDigit (d : Nat) : String :=
  match d with
  | 0 => "0"
  | 1 => "1"
  | 2 => "2"
  | 3 => "3"
  | 4 => "4"
  | 5 => "5"
  | 6 => "6"
  | 7 => "7"
  | 8 => "8"
  | 9 => "9"
  | 10 => "a"
  | 11 => "b"
  | 12 => "c"
  | 13 => "d"
  | 14 => "e"
  | _ => "f"

/-- The hexadecimal digits of `n`, no leading zeros, `0` for zero; `k + 1` digits suffice. -/
def hexDigits : (k n : Nat) → String
  | 0, n => hexDigit (n % 16)
  | k + 1, n => if n < 16 then hexDigit n else hexDigits k (n / 16) ++ hexDigit (n % 16)

/-- R91: an immediate, in lowercase hexadecimal prefixed `0x`; 64 bits are 16 digits. -/
def renderImm (c : Word64) : String := "0x" ++ hexDigits 15 c.toNat

/-- R92: the displacement, then the base in parentheses only when it is not the sentinel. -/
def renderMem (c : Word64) (base : RegId) : String :=
  match base with
  | .rnone => renderImm c
  | .reg n => renderImm c ++ "(" ++ (RegId.reg n).render ++ ")"

/-- R93: the mnemonic. -/
def Instr.mnemonic : Instr → String
  | .halt => "halt"
  | .nop => "nop"
  | .rrmovq _ _ => "rrmovq"
  | .cmovle _ _ => "cmovle"
  | .cmovl _ _ => "cmovl"
  | .cmove _ _ => "cmove"
  | .cmovne _ _ => "cmovne"
  | .cmovge _ _ => "cmovge"
  | .cmovg _ _ => "cmovg"
  | .irmovq _ _ => "irmovq"
  | .rmmovq _ _ _ => "rmmovq"
  | .mrmovq _ _ _ => "mrmovq"
  | .addq _ _ => "addq"
  | .subq _ _ => "subq"
  | .andq _ _ => "andq"
  | .xorq _ _ => "xorq"
  | .jmp _ => "jmp"
  | .jle _ => "jle"
  | .jl _ => "jl"
  | .je _ => "je"
  | .jne _ => "jne"
  | .jge _ => "jge"
  | .jg _ => "jg"
  | .call _ => "call"
  | .ret => "ret"
  | .pushq _ => "pushq"
  | .popq _ => "popq"

/-- R93: the operands, by the templates. Where a register operand is the sentinel its text is empty (R90; log
entry 11). -/
def Instr.operands : Instr → List String
  | .halt | .nop | .ret => []
  | .rrmovq rA rB | .cmovle rA rB | .cmovl rA rB | .cmove rA rB | .cmovne rA rB | .cmovge rA rB | .cmovg rA rB =>
    [rA.render, rB.render]
  | .irmovq rB c => [renderImm c, rB.render]
  | .rmmovq rA rB c => [rA.render, renderMem c rB]
  | .mrmovq rA rB c => [renderMem c rB, rA.render]
  | .addq rA rB | .subq rA rB | .andq rA rB | .xorq rA rB => [rA.render, rB.render]
  | .jmp c | .jle c | .jl c | .je c | .jne c | .jge c | .jg c | .call c => [renderImm c]
  | .pushq rA | .popq rA => [rA.render]

/-- R93: operands are separated by a comma and a space. -/
def joinOperands : List String → String
  | [] => ""
  | [x] => x
  | x :: rest => x ++ ", " ++ joinOperands rest

/-- R93: the mnemonic, one space, the operands. -/
def Instr.render (i : Instr) : String :=
  match i.operands with
  | [] => i.mnemonic
  | ops => i.mnemonic ++ " " ++ joinOperands ops

end Sys2Proof
end

