-- ==== Sys2Proof/Safety.lean ====
section
/-! DEFINITION. What counts as a run's end and as a sound listing: the run's terminal status (R200, R202), what
a walk's output must be, and the invariant every step keeps. -/

namespace Sys2Proof.Machine

/-- The run's status (R202): R18 asks that normal completion and abort be told apart. -/
inductive RunStatus where
  | inProgress
  | normalCompletion
  | abort (k : FaultKind) (pc : Nat) (raw : Option Byte)
deriving DecidableEq, Repr

/-- The raw byte of the last diagnostic of an output (R195). -/
def lastRaw : List Event → Option Byte
  | [] => none
  | [.diagnostic _ _ _ raw] => raw
  | _ :: rest => lastRaw rest

/-- R202: a run is final when every code segment's walk is in Done, or one walk is in Aborted(k). -/
def State.runStatus (s : State) : RunStatus :=
  match s.walk.phase with
  | .walking => .inProgress
  | .done => if s.pending = [] then .normalCompletion else .inProgress
  | .aborted k => .abort k s.walk.pc (lastRaw s.walk.out)

/-- R196: the exit status of an aborted run is `EXIT_STATUS_ABORT`; the spec gives no other. -/
def State.abortExitStatus (s : State) : Option Nat :=
  match s.walk.phase with
  | .aborted _ => some Config.exitStatusAbort
  | _ => none

/-- The facts a listing line carries (R5): the address, the bytes spanned, the decoded instruction. -/
structure ListingLine where
  addr  : Nat
  bytes : List Byte
  ins   : Ins
deriving DecidableEq, Repr

/-- The lines `ls` list the instructions from address `a` on, one after another, up to address `b`: each
line's instruction is what the decoder finds at its address, its bytes are the bytes there, and the next line
stands at the address after it (R194). -/
def Tiles (p : Params) (M : Contents) : Nat → List ListingLine → Nat → Prop
  | a, [], b => a = b
  | a, l :: ls, b =>
    l.addr = a ∧ decode p M a = .ok l.ins ∧ l.bytes = bytesAt M a l.ins.len ∧ Tiles p M l.ins.valP ls b

/-- R198: the label before a step at `pc`. -/
def labelAt (entry pc : Nat) : List Event := if pc = entry then [.label pc] else []

/-- The events that lines give, with the entry label where it stands (R192). -/
def listing (entry : Nat) (ls : List ListingLine) : List Event :=
  ls.flatMap fun l => labelAt entry l.addr ++ [.line l.addr l.bytes l.ins]

/-- Whether a Halt is among the lines. -/
def haltListed (ls : List ListingLine) : Bool := ls.any fun l => decide (l.ins.icode = .halt)

/-- R23: the status that the lines of a walk without a fault leave. -/
def statAfter (ls : List ListingLine) : Stat := if haltListed ls then .halted else .running

/-- What a walk may look like: its output is the listing of the code from the segment's start to `pc`, each
line starting inside the segment; and by phase, its status and how it ended. -/
def Walk.sound (p : Params) (M : Contents) (entry : Nat) (w : Walk) : Prop :=
  ∃ ls : List ListingLine,
    Tiles p M w.seg.virtualStart.toNat ls w.pc ∧ (∀ l ∈ ls, l.addr < w.seg.segEnd) ∧
    match w.phase with
    | .walking => w.out = listing entry ls ∧ w.stat = statAfter ls ∧
        (p.haltStopsWalk = true → haltListed ls = false)
    | .done => w.out = listing entry ls ∧ w.stat = statAfter ls ∧
        (w.seg.segEnd ≤ w.pc ∨ (p.haltStopsWalk = true ∧ haltListed ls = true))
    | .aborted k => ∃ (x : Nat) (raw : Option Byte), decode p M w.pc = .fail ⟨k, x, raw⟩ ∧
        w.pc < w.seg.segEnd ∧ w.stat = .ofFault k ∧
        w.out = listing entry ls ++ (labelAt entry w.pc ++ [.diagnostic k w.pc x raw])

/-- The invariant: parameters in range, a canonical memory inside the AddressSpace, a sound walk, and only
sound walks in Done before it. -/
structure State.Inv (s : State) : Prop where
  params_wf   : s.params.wf = true
  mem_wf      : s.mem.wf = true
  mem_within  : s.mem.within s.params.memSize = true
  walk_sound  : s.walk.sound s.params s.contents s.entryPoint.toNat
  walks_ended : ∀ w ∈ s.finished, w.phase = .done ∧ w.sound s.params s.contents s.entryPoint.toNat

/-- `n` steps of one walk, which stop where it has ended. -/
def walkFor : Nat → State → State
  | 0, s => s
  | n + 1, s =>
    match s.walk.phase with
    | .walking =>
      match walkStep s with
      | .next t => walkFor n t
      | _ => s
    | _ => s

end Sys2Proof.Machine
end

