-- ==== Sys2Proof/Certificates/Slice0/Obligations.lean ====
section
/-! DEFINITION. The statements about the machine, for the provers. Every statement holds for every value of the
parameters of R9, unless it names one. -/

namespace Sys2Proof.Claims

open Sys2Proof.Machine

/-- Contents that hold the bytes `bs` from address `a` on, and 0 elsewhere. -/
def contentsOf (a : Nat) (bs : List Byte) : Contents := fun x => if x < a then 0#8 else bs.getD (x - a) 0#8

/-- `Fail{InvalidAddress, x, raw}`. -/
abbrev failIA (x : Nat) (raw : Option Byte) : DecodeResult := .fail ⟨.invalidAddress, x, raw⟩

/-- `Fail{InvalidInstruction, a, raw}`. -/
abbrev failII (a : Nat) (raw : Option Byte) : DecodeResult := .fail ⟨.invalidInstruction, a, raw⟩

/-- Whether the decode of the bytes `bs` at address 0 succeeds. -/
def decodesAtZero (p : Params) (bs : List Byte) : Bool :=
  match decode p (contentsOf 0 bs) 0 with
  | .ok _ => true
  | .fail _ => false

/-- How many register bytes are legal after the opcode byte `b0`, in an instruction whose other bytes are 0. -/
def legalRegisterBytes (p : Params) (b0 : Byte) : Nat :=
  ((List.range 256).filter fun b => decodesAtZero p [b0, BitVec.ofNat 8 b]).length

/-- The 27 legal first bytes, as R78 lists them. -/
def legalFirstBytes : List Byte :=
  [0x00#8, 0x10#8, 0x20#8, 0x21#8, 0x22#8, 0x23#8, 0x24#8, 0x25#8, 0x26#8] ++
  [0x30#8, 0x40#8, 0x50#8, 0x60#8, 0x61#8, 0x62#8, 0x63#8, 0x80#8, 0x90#8] ++
  [0x70#8, 0x71#8, 0x72#8, 0x73#8, 0x74#8, 0x75#8, 0x76#8, 0xA0#8, 0xB0#8]

/-- The state after the line of a decoded instruction that is no halt: the line is listed and `pc` is at the
record's `valP`. -/
def afterLine (s : State) (ins : Ins) : State :=
  { s with walk := { s.walk with
      pc := ins.valP
      out := s.walk.out ++ [.line s.walk.pc (bytesAt s.mem.byteAt s.walk.pc ins.len) ins] } }

/-- The state after an abort for InvalidAddress. -/
def afterIA (s : State) (x : Nat) (raw : Option Byte) : State :=
  { s with walk := { s.walk with
      stat := .invalidAddress
      phase := .aborted .invalidAddress
      out := s.walk.out ++ [.diagnostic .invalidAddress s.walk.pc x raw] } }

/-- The state after an abort for InvalidInstruction. -/
def afterII (s : State) (x : Nat) (raw : Option Byte) : State :=
  { s with walk := { s.walk with
      stat := .invalidInstruction
      phase := .aborted .invalidInstruction
      out := s.walk.out ++ [.diagnostic .invalidInstruction s.walk.pc x raw] } }

/-- The record of a two-byte instruction at `a`. -/
def ins2 (c : IClass) (f : BitVec 8) (rA rB : RegId) (a : Nat) : Ins :=
  { icode := c, ifun := f, rA := rA, rB := rB, valC := none, len := 2, valP := a + 2 }

/-- The record of a jump or call at `a`. -/
def ins9 (c : IClass) (f : BitVec 8) (valC : Word64) (a : Nat) : Ins :=
  { icode := c, ifun := f, rA := .rnone, rB := .rnone, valC := some valC, len := 9, valP := a + 9 }

/-- The record of a ten-byte instruction at `a`. -/
def ins10 (c : IClass) (rA rB : RegId) (valC : Word64) (a : Nat) : Ins :=
  { icode := c, ifun := 0#8, rA := rA, rB := rB, valC := some valC, len := 10, valP := a + 10 }

/-- The record of a one-byte instruction at `a`. -/
def ins1 (c : IClass) (a : Nat) : Ins :=
  { icode := c, ifun := 0#8, rA := .rnone, rB := .rnone, valC := none, len := 1, valP := a + 1 }

/-- Whether an event is an entry label. -/
def isLabel : Event → Bool
  | .label _ => true
  | _ => false

end Sys2Proof.Claims

open Sys2Proof Sys2Proof.Machine Sys2Proof.Claims

/-! ### Encoding and decoding -/

/-- The spec's own words, byte by byte, decode to the instructions they stand for: R125, R131, R132, R138 (W2),
R139, R140, R153, R164, R168, R169, R180, R181. -/
def Obligations.SpecWordsDecode : Prop :=
  decodeInstr .default (contentsOf 0xFFF [0x00#8]) 0xFFF = .instr .halt ∧
  decodeInstr .default (contentsOf 0x100 [0x10#8]) 0x100 = .instr .nop ∧
  decodeInstr .default (contentsOf 0x010 [0x20#8, 0x01#8]) 0x010 = .instr (.rrmovq (.reg 0) (.reg 1)) ∧
  decodeInstr .default (contentsOf 0 [0x21#8, 0x23#8]) 0 = .instr (.cmovle (.reg 2) (.reg 3)) ∧
  decodeInstr .default (contentsOf 0 [0x30#8, 0xF1#8, 0x05#8]) 0 = .instr (.irmovq (.reg 1) 5#64) ∧
  decodeInstr .default (contentsOf 0 [0x40#8, 0x15#8, 0x10#8]) 0 = .instr (.rmmovq (.reg 1) (.reg 5) 0x10#64) ∧
  decodeInstr .default (contentsOf 0x200 [0x50#8, 0x21#8, 0x08#8]) 0x200
    = .instr (.mrmovq (.reg 2) (.reg 1) 8#64) ∧
  decodeInstr .default (contentsOf 0 [0x62#8, 0x9A#8]) 0 = .instr (.andq (.reg 9) (.reg 10)) ∧
  decodeInstr .default (contentsOf 0x10F [0x73#8, 0x00#8, 0x01#8]) 0x10F = .instr (.je 0x100#64) ∧
  decodeInstr .default (contentsOf 0x100 [0x80#8, 0x0B#8, 0x01#8]) 0x100 = .instr (.call 0x10B#64) ∧
  decodeInstr .default (contentsOf 0x11A [0x90#8]) 0x11A = .instr .ret ∧
  decodeInstr .default (contentsOf 0x10B [0xA0#8, 0x5F#8]) 0x10B = .instr (.pushq (.reg 5)) ∧
  decodeInstr .default (contentsOf 0 [0xB0#8, 0x4F#8]) 0 = .instr (.popq (.reg 4))

/-- Decoding the encoding of a well-formed instruction gives it back, with every operand, at every address it
fits and whatever stands around it. -/
def Obligations.DecodeOfEncode : Prop :=
  ∀ (p : Params) (M : Contents) (a : Nat) (i : Instr), i.wellFormed p = true →
    a + (encode i).length ≤ p.memSize → bytesAt M a (encode i).length = encode i →
    decodeInstr p M a = .instr i

/-- Whatever the decoder finds is well formed, and the bytes at its address are its encoding. -/
def Obligations.EncodeOfDecode : Prop :=
  ∀ (p : Params) (M : Contents) (a : Nat) (i : Instr), decodeInstr p M a = .instr i →
    i.wellFormed p = true ∧ bytesAt M a i.length = encode i ∧ a + i.length ≤ p.memSize

/-- The failure a decode reports when several apply is the first that holds, in the order of R112 (a sentence the
spec marks as derived from R103); when none does, the decode succeeds. -/
def Obligations.FirstFailureInOrder : Prop :=
  ∀ (p : Params) (M : Contents) (a : Nat),
    (p.memSize ≤ a → decode p M a = failIA a none) ∧
    (a < p.memSize → 0xC ≤ (hiNibble (M a)).toNat → decode p M a = failII a (some (M a))) ∧
    (∀ e, a < p.memSize → p.dispatch (IClass.ofNibble (hiNibble (M a))) = some e →
      (2 ≤ e.fmt.length → p.memSize ≤ a + 1 → decode p M a = failIA (a + 1) (some (M a))) ∧
      (e.fmt.length < 2 ∨ a + 1 < p.memSize →
        (p.immCheckOrder = .fieldsFirst →
          (e.valid (loNibble (M a)) (e.rA (M (a + 1))) (e.rB (M (a + 1))) = false →
            decode p M a = failII a (some (M a))) ∧
          (e.valid (loNibble (M a)) (e.rA (M (a + 1))) (e.rB (M (a + 1))) = true →
            e.fmt.immOff.isSome = true → p.memSize < a + e.fmt.length →
            decode p M a = failIA p.memSize (some (M a)))) ∧
        (p.immCheckOrder = .boundsFirst →
          (e.fmt.immOff.isSome = true → p.memSize < a + e.fmt.length →
            decode p M a = failIA p.memSize (some (M a))) ∧
          (e.fmt.immOff.isSome = false ∨ a + e.fmt.length ≤ p.memSize →
            e.valid (loNibble (M a)) (e.rA (M (a + 1))) (e.rB (M (a + 1))) = false →
            decode p M a = failII a (some (M a))))) ∧
      (a + e.fmt.length ≤ p.memSize →
        e.valid (loNibble (M a)) (e.rA (M (a + 1))) (e.rB (M (a + 1))) = true →
        ∃ ins, decode p M a = .ok ins))

/-- R104: an opcode byte whose high nibble is 0xC or more is of the Invalid class, and fails with InvalidInstruction
and the full raw byte, at every address of the space, whatever the other bytes are. -/
def Obligations.InvalidClassFailsOnItsByte : Prop :=
  ∀ (p : Params) (M M' : Contents) (a : Nat), a < p.memSize → 0xC ≤ (hiNibble (M a)).toNat → M' a = M a →
    IClass.ofNibble (hiNibble (M a)) = .invalid ∧ decode p M' a = failII a (some (M a))

/-- At the last byte of the space every class of two or more bytes fails with InvalidAddress, whatever its
subfunction and in either order of the checks (R105, with the spec's decision D4). -/
def Obligations.SecondByteOutOfRange : Prop :=
  ∀ (p : Params) (M : Contents) (a : Nat), a + 1 = p.memSize →
    (hiNibble (M a)).toNat ∈ [2, 3, 4, 5, 6, 7, 8, 10, 11] →
    decode p M a = failIA p.memSize (some (M a))

/-- The fault addresses and the raw byte of every failure (R110, which the spec marks as derived; R108, with the
spec's decision D7). -/
def Obligations.FaultAddresses : Prop :=
  ∀ (p : Params) (M : Contents) (a : Nat) (f : Failure), decode p M a = .fail f →
    (p.memSize ≤ a → f = ⟨.invalidAddress, a, none⟩) ∧
    (a < p.memSize → f.raw = some (M a)) ∧
    (a < p.memSize → f.kind = .invalidAddress → f.addr = p.memSize) ∧
    (f.kind = .invalidInstruction → f.addr = a)

/-- On success `valP = a + L`, and it is at most `MEM_SIZE` (R109; the spec marks the bound as derived). -/
def Obligations.SuccessEndsInsideSpace : Prop :=
  ∀ (p : Params) (M : Contents) (a : Nat) (ins : Ins), decode p M a = .ok ins →
    ins.valP = a + ins.len ∧ ins.valP ≤ p.memSize ∧ ins.len ∈ [1, 2, 9, 10]

/-- Every field of the record of a successful decode, from the bytes (R31, R111, with the spec's decisions D6 and
D21: the sentinel where there is no register byte, an absent immediate as none). -/
def Obligations.RecordFields : Prop :=
  ∀ (p : Params) (M : Contents) (a : Nat) (ins : Ins), decode p M a = .ok ins →
    ins.icode = IClass.ofNibble (hiNibble (M a)) ∧ ins.icode ≠ .invalid ∧
    ins.ifun = (loNibble (M a)).setWidth 8 ∧
    ins.rA = (if ins.len = 2 ∨ ins.len = 10 then RegId.ofNibble (hiNibble (M (a + 1))) else .rnone) ∧
    ins.rB = (if ins.len = 2 ∨ ins.len = 10 then RegId.ofNibble (loNibble (M (a + 1))) else .rnone) ∧
    ins.valC = (if ins.len = 9 then some (immediateAt M (a + 1))
      else if ins.len = 10 then some (immediateAt M (a + 2)) else none)

/-- R66: the length is a function of the high nibble of the first byte alone, and an Invalid one has none. -/
def Obligations.LengthByClass : Prop :=
  ∀ (p : Params) (M : Contents) (a : Nat) (ins : Ins), decode p M a = .ok ins →
    [1, 1, 2, 10, 10, 10, 2, 9, 9, 1, 2, 2][(hiNibble (M a)).toNat]? = some ins.len

/-- The legal first bytes are exactly the 27 that R78 lists, in a space that the longest instruction fits. (The
spec marks R78 as derived from R70 and R71.) -/
def Obligations.LegalFirstBytes : Prop :=
  ∀ (p : Params), 10 ≤ p.memSize → ∀ b : Byte,
    (∃ M a ins, M a = b ∧ decode p M a = .ok ins) ↔ b ∈ legalFirstBytes

/-- How many register bytes are legal after each legal first byte, with either value of `MRMOV_NIBBLES` (R80,
which the spec marks as derived from R72). -/
def Obligations.LegalRegisterByteCounts : Prop :=
  (∀ b ∈ [0x20#8, 0x21#8, 0x22#8, 0x23#8, 0x24#8, 0x25#8, 0x26#8, 0x60#8, 0x61#8, 0x62#8, 0x63#8],
    legalRegisterBytes .default b = 225) ∧
  legalRegisterBytes .default 0x30#8 = 15 ∧
  legalRegisterBytes .default 0x40#8 = 240 ∧ legalRegisterBytes .default 0x50#8 = 240 ∧
  legalRegisterBytes { Params.default with mrmovNibbles := .swapped } 0x50#8 = 240 ∧
  legalRegisterBytes .default 0xA0#8 = 15 ∧ legalRegisterBytes .default 0xB0#8 = 15

/-- R75, R76, R77: the subfunction tables name the instruction that is found, and its mnemonic. -/
def Obligations.SubfunctionTables : Prop :=
  ∀ (p : Params) (M : Contents) (a : Nat) (i : Instr), decodeInstr p M a = .instr i →
    ((hiNibble (M a)).toNat = 2 →
      ∃ rA rB, [Instr.rrmovq rA rB, .cmovle rA rB, .cmovl rA rB, .cmove rA rB, .cmovne rA rB, .cmovge rA rB,
        .cmovg rA rB][(loNibble (M a)).toNat]? = some i ∧
        ["rrmovq", "cmovle", "cmovl", "cmove", "cmovne", "cmovge", "cmovg"][(loNibble (M a)).toNat]?
          = some i.mnemonic) ∧
    ((hiNibble (M a)).toNat = 6 →
      ∃ rA rB, [Instr.addq rA rB, .subq rA rB, .andq rA rB, .xorq rA rB][(loNibble (M a)).toNat]? = some i ∧
        ["addq", "subq", "andq", "xorq"][(loNibble (M a)).toNat]? = some i.mnemonic) ∧
    ((hiNibble (M a)).toNat = 7 →
      ∃ c, [Instr.jmp c, .jle c, .jl c, .je c, .jne c, .jge c, .jg c][(loNibble (M a)).toNat]? = some i ∧
        ["jmp", "jle", "jl", "je", "jne", "jge", "jg"][(loNibble (M a)).toNat]? = some i.mnemonic)

/-- R50: the immediate is the little-endian sum of its 8 bytes, zero-extended and shifted. -/
def Obligations.ImmediateIsLittleEndianSum : Prop :=
  ∀ (M : Contents) (q : Nat), immediateAt M q =
    (M q).setWidth 64 + ((M (q + 1)).setWidth 64 <<< 8) + ((M (q + 2)).setWidth 64 <<< 16) +
      ((M (q + 3)).setWidth 64 <<< 24) + ((M (q + 4)).setWidth 64 <<< 32) + ((M (q + 5)).setWidth 64 <<< 40) +
      ((M (q + 6)).setWidth 64 <<< 48) + ((M (q + 7)).setWidth 64 <<< 56)

/-- The two orders of the checks disagree only where a field is invalid and the immediate is truncated, and then
they report InvalidInstruction and InvalidAddress (the last sentence of R114, which the spec marks as derived, and
its decision D3). -/
def Obligations.CheckOrdersDisagreeOnlyWhenBothFail : Prop :=
  ∀ (p : Params) (M : Contents) (a : Nat),
    decode { p with immCheckOrder := .fieldsFirst } M a ≠ decode { p with immCheckOrder := .boundsFirst } M a →
    a + 1 < p.memSize ∧ (hiNibble (M a)).toNat ∈ [3, 4, 5, 7, 8] ∧ p.memSize < a + 10 ∧
    decode { p with immCheckOrder := .fieldsFirst } M a = failII a (some (M a)) ∧
    decode { p with immCheckOrder := .boundsFirst } M a = failIA p.memSize (some (M a))

/-- A decode depends on the bytes at `a .. a + 9` below `MEM_SIZE` only, and a successful one on the bytes
`a .. a + L - 1` only (R113, which the spec marks as derived from R103). -/
def Obligations.DecodeReadsOnlyItsBytes : Prop :=
  ∀ (p : Params) (M M' : Contents) (a : Nat),
    ((∀ x, a ≤ x → x ≤ a + 9 → x < p.memSize → M' x = M x) → decode p M' a = decode p M a) ∧
    (∀ ins, decode p M a = .ok ins → (∀ x, a ≤ x → x < a + ins.len → M' x = M x) → decode p M' a = .ok ins)

/-- The codes of the status and of the fault kinds (R22, R210; the numbers are the spec's decision D8). -/
def Obligations.StatusAndFaultCodes : Prop :=
  Stat.code .running = 0b00#2 ∧ Stat.code .halted = 0b01#2 ∧ Stat.code .invalidAddress = 0b10#2 ∧
  Stat.code .invalidInstruction = 0b11#2 ∧
  Stat.code (.ofFault .invalidAddress) = 0b10#2 ∧ Stat.code (.ofFault .invalidInstruction) = 0b11#2 ∧
  FaultKind.port .invalidAddress = 0#1 ∧ FaultKind.port .invalidInstruction = 1#1

/-! ### The decode of each class -/

/-- The decode of the one-byte classes (R125, R126, R169). -/
def Obligations.OneByteDecode : Prop :=
  ∀ (p : Params) (M : Contents) (a : Nat),
    ∀ c ∈ [(0, IClass.halt), (1, IClass.nop), (9, IClass.ret)], (hiNibble (M a)).toNat = c.1 →
    decode p M a =
      if p.memSize ≤ a then failIA a none
      else if (loNibble (M a)).toNat ≠ 0 then failII a (some (M a))
      else .ok (ins1 c.2 a)

/-- R130, R150: the decode of the ConditionalMove and ArithmeticOp classes. -/
def Obligations.RegisterPairDecode : Prop :=
  ∀ (p : Params) (M : Contents) (a : Nat),
    ∀ c ∈ [(2, 6, IClass.conditionalMove), (6, 3, IClass.arithmeticOp)], (hiNibble (M a)).toNat = c.1 →
    decode p M a =
      if p.memSize ≤ a then failIA a none
      else if p.memSize ≤ a + 1 then failIA (a + 1) (some (M a))
      else if c.2.1 < (loNibble (M a)).toNat then failII a (some (M a))
      else if (hiNibble (M (a + 1))).toNat = 0xF then failII a (some (M a))
      else if (loNibble (M (a + 1))).toNat = 0xF then failII a (some (M a))
      else .ok (ins2 c.2.2 ((loNibble (M a)).setWidth 8) (RegId.ofNibble (hiNibble (M (a + 1))))
        (RegId.ofNibble (loNibble (M (a + 1)))) a)

/-- The decode of `irmovq` (R138), with either value of `IMM_CHECK_ORDER`. -/
def Obligations.IrmovqDecode : Prop :=
  ∀ (p : Params) (M : Contents) (a : Nat), (hiNibble (M a)).toNat = 3 →
    decode p M a =
      if p.memSize ≤ a then failIA a none
      else if p.memSize ≤ a + 1 then failIA (a + 1) (some (M a))
      else if p.immCheckOrder = .boundsFirst ∧ p.memSize ≤ a + 9 then failIA p.memSize (some (M a))
      else if (loNibble (M a)).toNat ≠ 0 then failII a (some (M a))
      else if (hiNibble (M (a + 1))).toNat ≠ 0xF then failII a (some (M a))
      else if (loNibble (M (a + 1))).toNat = 0xF then failII a (some (M a))
      else if p.memSize ≤ a + 9 then failIA p.memSize (some (M a))
      else .ok (ins10 .immediateToRegister .rnone (RegId.ofNibble (loNibble (M (a + 1))))
        (immediateAt M (a + 2)) a)

/-- The decode of `rmmovq` (R139), with either value of `IMM_CHECK_ORDER`. -/
def Obligations.RmmovqDecode : Prop :=
  ∀ (p : Params) (M : Contents) (a : Nat), (hiNibble (M a)).toNat = 4 →
    decode p M a =
      if p.memSize ≤ a then failIA a none
      else if p.memSize ≤ a + 1 then failIA (a + 1) (some (M a))
      else if p.immCheckOrder = .boundsFirst ∧ p.memSize ≤ a + 9 then failIA p.memSize (some (M a))
      else if (loNibble (M a)).toNat ≠ 0 then failII a (some (M a))
      else if (hiNibble (M (a + 1))).toNat = 0xF then failII a (some (M a))
      else if p.memSize ≤ a + 9 then failIA p.memSize (some (M a))
      else .ok (ins10 .registerToMemory (RegId.ofNibble (hiNibble (M (a + 1))))
        (RegId.ofNibble (loNibble (M (a + 1)))) (immediateAt M (a + 2)) a)

/-- The decode of `mrmovq` (R140, with the spec's decision D5), with either value of `MRMOV_NIBBLES`. -/
def Obligations.MrmovqDecode : Prop :=
  ∀ (p : Params) (M : Contents) (a : Nat), (hiNibble (M a)).toNat = 5 →
    decode p M a =
      if p.memSize ≤ a then failIA a none
      else if p.memSize ≤ a + 1 then failIA (a + 1) (some (M a))
      else if p.immCheckOrder = .boundsFirst ∧ p.memSize ≤ a + 9 then failIA p.memSize (some (M a))
      else if (loNibble (M a)).toNat ≠ 0 then failII a (some (M a))
      else if p.mrmovNibbles = .sameAsRmmov ∧ (hiNibble (M (a + 1))).toNat = 0xF then failII a (some (M a))
      else if p.mrmovNibbles = .swapped ∧ (loNibble (M (a + 1))).toNat = 0xF then failII a (some (M a))
      else if p.memSize ≤ a + 9 then failIA p.memSize (some (M a))
      else .ok (ins10 .memoryToRegister (RegId.ofNibble (hiNibble (M (a + 1))))
        (RegId.ofNibble (loNibble (M (a + 1)))) (immediateAt M (a + 2)) a)

/-- The decode of the Jump and Call classes (R160, R168), with either value of `IMM_CHECK_ORDER` (R114, with the
spec's decision D3). -/
def Obligations.TargetDecode : Prop :=
  ∀ (p : Params) (M : Contents) (a : Nat),
    ∀ c ∈ [(7, 6, IClass.jump), (8, 0, IClass.call)], (hiNibble (M a)).toNat = c.1 →
    decode p M a =
      if p.memSize ≤ a then failIA a none
      else if p.memSize ≤ a + 1 then failIA (a + 1) (some (M a))
      else if p.immCheckOrder = .boundsFirst ∧ p.memSize ≤ a + 8 then failIA p.memSize (some (M a))
      else if c.2.1 < (loNibble (M a)).toNat then failII a (some (M a))
      else if p.memSize ≤ a + 8 then failIA p.memSize (some (M a))
      else .ok (ins9 c.2.2 ((loNibble (M a)).setWidth 8) (immediateAt M (a + 1)) a)

/-- The decode of the Push and Pop classes (R180, R181). -/
def Obligations.StackDecode : Prop :=
  ∀ (p : Params) (M : Contents) (a : Nat),
    ∀ c ∈ [(0xA, IClass.push), (0xB, IClass.pop)], (hiNibble (M a)).toNat = c.1 →
    decode p M a =
      if p.memSize ≤ a then failIA a none
      else if p.memSize ≤ a + 1 then failIA (a + 1) (some (M a))
      else if (loNibble (M a)).toNat ≠ 0 then failII a (some (M a))
      else if (hiNibble (M (a + 1))).toNat = 0xF then failII a (some (M a))
      else if (loNibble (M (a + 1))).toNat ≠ 0xF then failII a (some (M a))
      else .ok (ins2 c.2 0#8 (RegId.ofNibble (hiNibble (M (a + 1)))) .rnone a)

/-! ### The effect of each instruction -/

/-- `halt` completes: the line is listed, `Stat` becomes Halted, `pc` advances by 1, and the walk ends only when
`HALT_STOPS_WALK` is true (R125, R23, R197). -/
def Obligations.HaltCompletes : Prop :=
  ∀ s : State, s.walk.pc + 1 ≤ s.params.memSize →
    exec .halt s = .next { s with walk := { s.walk with
      pc := s.walk.pc + 1
      stat := .halted
      phase := if s.params.haltStopsWalk = true then .done else s.walk.phase
      out := s.walk.out ++ [.line s.walk.pc [s.mem.byteAt s.walk.pc] (ins1 .halt s.walk.pc)] } }

/-- `nop` and `ret` complete: the line is listed and `pc` advances by 1 (R126, R169). -/
def Obligations.NopAndRetComplete : Prop :=
  ∀ s : State, s.walk.pc + 1 ≤ s.params.memSize →
    exec .nop s = .next (afterLine s (ins1 .nop s.walk.pc)) ∧
    exec .ret s = .next (afterLine s (ins1 .ret s.walk.pc))

/-- The seven conditional moves complete with two ordinary registers (R130 to R137). -/
def Obligations.ConditionalMovesComplete : Prop :=
  ∀ (s : State) (m n : Fin 15), s.walk.pc + 2 ≤ s.params.memSize →
    let after (f : BitVec 8) := afterLine s (ins2 .conditionalMove f (.reg m) (.reg n) s.walk.pc)
    exec (.rrmovq (.reg m) (.reg n)) s = .next (after 0) ∧
    exec (.cmovle (.reg m) (.reg n)) s = .next (after 1) ∧
    exec (.cmovl (.reg m) (.reg n)) s = .next (after 2) ∧
    exec (.cmove (.reg m) (.reg n)) s = .next (after 3) ∧
    exec (.cmovne (.reg m) (.reg n)) s = .next (after 4) ∧
    exec (.cmovge (.reg m) (.reg n)) s = .next (after 5) ∧
    exec (.cmovg (.reg m) (.reg n)) s = .next (after 6)

/-- `irmovq` completes with an ordinary register and any immediate (R138). -/
def Obligations.IrmovqCompletes : Prop :=
  ∀ (s : State) (n : Fin 15) (c : Word64), s.walk.pc + 10 ≤ s.params.memSize →
    exec (.irmovq (.reg n) c) s =
      .next (afterLine s (ins10 .immediateToRegister .rnone (.reg n) c s.walk.pc))

/-- `rmmovq` completes with an ordinary register, any base or none, and any displacement (R139). -/
def Obligations.RmmovqCompletes : Prop :=
  ∀ (s : State) (m : Fin 15) (rB : RegId) (c : Word64), s.walk.pc + 10 ≤ s.params.memSize →
    exec (.rmmovq (.reg m) rB c) s =
      .next (afterLine s (ins10 .registerToMemory (.reg m) rB c s.walk.pc))

/-- `mrmovq` completes with an ordinary register and any base or none, and, where `MRMOV_NIBBLES` is Swapped,
with any first nibble and an ordinary second one (R140). -/
def Obligations.MrmovqCompletes : Prop :=
  ∀ (s : State) (m : Fin 15) (r : RegId) (c : Word64), s.walk.pc + 10 ≤ s.params.memSize →
    (s.params.mrmovNibbles = .sameAsRmmov → exec (.mrmovq (.reg m) r c) s =
      .next (afterLine s (ins10 .memoryToRegister (.reg m) r c s.walk.pc))) ∧
    (s.params.mrmovNibbles = .swapped → exec (.mrmovq r (.reg m) c) s =
      .next (afterLine s (ins10 .memoryToRegister r (.reg m) c s.walk.pc)))

/-- The four arithmetic instructions complete with two ordinary registers (R150 to R154). -/
def Obligations.ArithmeticCompletes : Prop :=
  ∀ (s : State) (m n : Fin 15), s.walk.pc + 2 ≤ s.params.memSize →
    let after (f : BitVec 8) := afterLine s (ins2 .arithmeticOp f (.reg m) (.reg n) s.walk.pc)
    exec (.addq (.reg m) (.reg n)) s = .next (after 0) ∧
    exec (.subq (.reg m) (.reg n)) s = .next (after 1) ∧
    exec (.andq (.reg m) (.reg n)) s = .next (after 2) ∧
    exec (.xorq (.reg m) (.reg n)) s = .next (after 3)

/-- The seven jumps and `call` complete with any target, and `pc` goes to the address after them (R160 to
R168, R170). -/
def Obligations.JumpsAndCallComplete : Prop :=
  ∀ (s : State) (c : Word64), s.walk.pc + 9 ≤ s.params.memSize →
    let after (f : BitVec 8) := afterLine s (ins9 .jump f c s.walk.pc)
    exec (.jmp c) s = .next (after 0) ∧
    exec (.jle c) s = .next (after 1) ∧
    exec (.jl c) s = .next (after 2) ∧
    exec (.je c) s = .next (after 3) ∧
    exec (.jne c) s = .next (after 4) ∧
    exec (.jge c) s = .next (after 5) ∧
    exec (.jg c) s = .next (after 6) ∧
    exec (.call c) s = .next (afterLine s (ins9 .call 0#8 c s.walk.pc))

/-- `pushq` and `popq` complete with an ordinary register (R180, R181). -/
def Obligations.PushAndPopComplete : Prop :=
  ∀ (s : State) (m : Fin 15), s.walk.pc + 2 ≤ s.params.memSize →
    exec (.pushq (.reg m)) s = .next (afterLine s (ins2 .push 0#8 (.reg m) .rnone s.walk.pc)) ∧
    exec (.popq (.reg m)) s = .next (afterLine s (ins2 .pop 0#8 (.reg m) .rnone s.walk.pc))

/-- The frame of every instruction, all 27: it changes `pc`, `Stat`, the phase and the output only, adds one
event to the output, writes no byte of the AddressSpace; `Stat` and the phase change only for `halt` and by an
abort, and an abort leaves `pc`. (That `exec` itself aborts on operands or bytes its rule excludes is the model's
choice, log entry 7.) -/
def Obligations.InstructionFrame : Prop :=
  ∀ (i : Instr) (s t : State), exec i s = .next t →
    (∀ a, t.mem.byteAt a = s.mem.byteAt a) ∧ t.params = s.params ∧ t.entryPoint = s.entryPoint ∧
    t.pending = s.pending ∧ t.finished = s.finished ∧ t.walk.seg = s.walk.seg ∧
    (∃ e, t.walk.out = s.walk.out ++ [e]) ∧
    ((t.walk.pc = s.walk.pc + i.length ∧
        (i ≠ .halt → t.walk.stat = s.walk.stat ∧ t.walk.phase = s.walk.phase)) ∨
      (t.walk.pc = s.walk.pc ∧ ∃ k, t.walk.phase = .aborted k ∧ t.walk.stat = .ofFault k))

/-- Where an instruction's bytes leave the AddressSpace: a legal instruction aborts with InvalidAddress, at the
program counter if that is already outside, and at `MEM_SIZE` otherwise (R211, which the spec marks as derived).
That `exec` makes this check itself, and reports the byte at the program counter as the raw byte, is the model's
choice (log entry 7). -/
def Obligations.TruncatedInstructionsAbort : Prop :=
  ∀ (i : Instr) (s : State), i.wellFormed s.params = true → s.params.memSize < s.walk.pc + i.length →
    exec i s = .next
      (if s.params.memSize ≤ s.walk.pc then afterIA s s.walk.pc none
       else afterIA s s.params.memSize (some (s.mem.byteAt s.walk.pc)))

/-- Where a register operand is outside its position's class, an instruction aborts: with InvalidAddress where its
first two bytes leave the space, or any of its bytes with `BoundsFirst`, and otherwise with InvalidInstruction, which
names its address (R72, R212 and R112, the last two marked by the spec as derived). That `exec` makes these checks
itself, and reports the byte at the program counter as the raw byte, is the model's choice (log entry 7): no step
calls it on such an instruction. -/
def Obligations.IllegalOperandsAbort : Prop :=
  ∀ (i : Instr) (s : State), i.wellFormed s.params = false →
    exec i s = .next
      (if s.params.memSize ≤ s.walk.pc then afterIA s s.walk.pc none
       else if s.params.memSize ≤ s.walk.pc + 1 then
         afterIA s s.params.memSize (some (s.mem.byteAt s.walk.pc))
       else if s.params.immCheckOrder = .boundsFirst ∧ s.params.memSize < s.walk.pc + i.length then
         afterIA s s.params.memSize (some (s.mem.byteAt s.walk.pc))
       else afterII s s.walk.pc (some (s.mem.byteAt s.walk.pc)))

/-- No target is followed (R170): what a jump or a call does to `pc`, `Stat` and the phase does not depend on its
target. -/
def Obligations.TargetsAreNotFollowed : Prop :=
  ∀ (s : State) (c c' : Word64),
    ∀ i ∈ [(Instr.jmp c, Instr.jmp c'), (.jle c, .jle c'), (.jl c, .jl c'), (.je c, .je c'), (.jne c, .jne c'),
      (.jge c, .jge c'), (.jg c, .jg c'), (.call c, .call c')],
    ∃ t t', exec i.1 s = .next t ∧ exec i.2 s = .next t' ∧ t'.walk.pc = t.walk.pc ∧
      t'.walk.stat = t.walk.stat ∧ t'.walk.phase = t.walk.phase

/-! ### The step -/

/-- A step runs the decoded instruction: where a walk has not reached its segment's end and the bytes at the
program counter decode to `i`, the step is `exec i`, after the entry label (R192; the label's place is the spec's
decision D23, log entry 9). -/
def Obligations.StepRunsDecodedInstruction : Prop :=
  ∀ (s : State) (i : Instr), s.walk.phase = .walking → s.walk.pc < s.walk.seg.segEnd →
    decodeInstr s.params s.mem.byteAt s.walk.pc = .instr i →
    step s = exec i { s with walk := { s.walk with out :=
      s.walk.out ++ (if s.walk.pc = s.entryPoint.toNat then [.label s.walk.pc] else []) } }

/-- After a successful decode the step lists the line, updates `Stat`, and sets `pc` to `valP`, for every class
(R194). The update of `Stat` is R23's, the spec's decision D9, and the label before the line is R198's, its decision
D23 (log entry 9). -/
def Obligations.StepListsDecodedInstruction : Prop :=
  ∀ (s : State) (ins : Ins), s.walk.phase = .walking → s.walk.pc < s.walk.seg.segEnd →
    decode s.params s.mem.byteAt s.walk.pc = .ok ins →
    ∃ t, step s = .next t ∧ t.walk.pc = ins.valP ∧
      t.walk.stat = (if ins.icode = .halt then .halted else s.walk.stat) ∧
      t.walk.out = s.walk.out ++ (if s.walk.pc = s.entryPoint.toNat then [.label s.walk.pc] else []) ++
        [.line s.walk.pc (bytesAt s.mem.byteAt s.walk.pc ins.len) ins]

/-- A successful Halt decode ends the walk exactly when `HALT_STOPS_WALK` is true, and no other decode ends it
(R197, with the spec's decision D10). -/
def Obligations.OnlyHaltMayEndAWalkEarly : Prop :=
  ∀ (s t : State) (ins : Ins), s.walk.phase = .walking → s.walk.pc < s.walk.seg.segEnd →
    decode s.params s.mem.byteAt s.walk.pc = .ok ins → step s = .next t →
    t.walk.phase = (if s.params.haltStopsWalk = true ∧ ins.icode = .halt then .done else .walking)

/-- After a failed decode the step sets `Stat` to the failure's kind, aborts, and emits a diagnostic; `pc` keeps the
address of the failing instruction and no line is listed (R195). The label before the diagnostic is R198's, the
spec's decision D23, and the fault address in it is R108's, its decision D7 (log entry 9). -/
def Obligations.StepTakesDecodeFailure : Prop :=
  ∀ (s : State) (f : Failure), s.walk.phase = .walking → s.walk.pc < s.walk.seg.segEnd →
    decode s.params s.mem.byteAt s.walk.pc = .fail f →
    step s = .next { s with walk := { s.walk with
      stat := match f.kind with
        | .invalidAddress => .invalidAddress
        | .invalidInstruction => .invalidInstruction
      phase := .aborted f.kind
      out := s.walk.out ++ (if s.walk.pc = s.entryPoint.toNat then [.label s.walk.pc] else []) ++
        [.diagnostic f.kind s.walk.pc f.addr f.raw] } }

/-- The walk ends normally when `pc` is at or past the segment's end, with no event (R193, with the spec's decision
D11). -/
def Obligations.WalkEndsAtSegmentEnd : Prop :=
  ∀ s : State, s.walk.phase = .walking →
    s.walk.seg.virtualStart.toNat + s.walk.seg.size.toNat ≤ s.walk.pc →
    step s = .next { s with walk := { s.walk with phase := .done } }

/-- After a walk in Done the next code segment's walk starts, in the order handed over, afresh (R191, R201, with the
spec's decision D12). That a start is a step of its own, and that the ended walk is kept, are the model's choices
(log entry 6). -/
def Obligations.NextWalkStartsFresh : Prop :=
  ∀ (s : State) (g : Segment) (rest : List Segment), s.walk.phase = .done → s.pending = g :: rest →
    step s = .next { s with
      walk := { seg := g, pc := g.virtualStart.toNat, stat := .running, phase := .walking, out := [] }
      pending := rest
      finished := s.finished ++ [s.walk] }

/-- No step is enabled (R202, R196) exactly when the run is final: a walk has aborted, or the walk is in Done and
no code segment is left. That it stops under these names is the model's choice (log entry 5). -/
def Obligations.FinalRunsHaveNoStep : Prop :=
  ∀ s : State,
    (step s = .fault .runComplete ↔ s.walk.phase = .done ∧ s.pending = []) ∧
    (∀ k, step s = .fault (.runAborted k) ↔ s.walk.phase = .aborted k) ∧
    ((∃ t, step s = .next t) ↔ s.walk.phase = .walking ∨ (s.walk.phase = .done ∧ s.pending ≠ []))

/-- A step emits the entry label exactly when it decodes at the entry point, and before the step's other event
(R198, with the spec's decision D23). -/
def Obligations.LabelExactlyAtEntryPoint : Prop :=
  ∀ s t : State, s.walk.phase = .walking → step s = .next t →
    ∃ evs, t.walk.out = s.walk.out ++ evs ∧
      (if s.walk.pc < s.walk.seg.segEnd ∧ s.walk.pc = s.entryPoint.toNat
       then ∃ e, evs = [.label s.walk.pc, e] ∧ isLabel e = false
       else ∀ e ∈ evs, isLabel e = false)

/-- R47: no step writes the AddressSpace; nor does it write the entry point or a parameter. -/
def Obligations.SpaceIsNeverWritten : Prop :=
  ∀ s t : State, step s = .next t →
    (∀ a, t.mem.byteAt a = s.mem.byteAt a) ∧ t.mem = s.mem ∧ t.entryPoint = s.entryPoint ∧
      t.params = s.params

/-- `Stat` changes only by a halt, by a fault, and by the start of a walk (R23, with the spec's decision D9). -/
def Obligations.StatusChangesOnlyByHaltFaultAndStart : Prop :=
  ∀ s t : State, step s = .next t → t.walk.stat ≠ s.walk.stat →
    (decode s.params s.mem.byteAt s.walk.pc = .ok (ins1 .halt s.walk.pc) ∧ t.walk.stat = .halted) ∨
    (∃ f, decode s.params s.mem.byteAt s.walk.pc = .fail f ∧ t.walk.stat = .ofFault f.kind ∧
      t.walk.phase = .aborted f.kind) ∨
    (s.walk.phase = .done ∧ t.walk.stat = .running)

/-- Every step of a walk either ends it or increases `pc` by the decoded length, at least 1, and leaves it at most
`MEM_SIZE` (the first sentence of R199). -/
def Obligations.StepEndsOrAdvances : Prop :=
  ∀ s t : State, s.walk.phase = .walking → step s = .next t →
    (t.walk.phase ≠ .walking) ∨
    (∃ ins, decode s.params s.mem.byteAt s.walk.pc = .ok ins ∧ 1 ≤ ins.len ∧
      t.walk.pc = s.walk.pc + ins.len ∧ t.walk.pc ≤ s.params.memSize)

/-- A walk takes at most `min(size, MEM_SIZE - virtualStart) + 1` steps, and ends by InvalidAddress in one step where
its segment is not empty and starts outside the space (the sentence of R199 that the spec marks as derived). -/
def Obligations.WalkTerminates : Prop :=
  ∀ (s : State) (g : Segment), s.walk = .start g →
    (walkFor (min g.size.toNat (s.params.memSize - g.virtualStart.toNat) + 1) s).walk.phase ≠ .walking ∧
    (s.params.memSize ≤ g.virtualStart.toNat → 0 < g.size.toNat →
      (walkFor 1 s).walk.phase = .aborted .invalidAddress ∧ (walkFor 1 s).walk.stat = .invalidAddress ∧
      (walkFor 1 s).walk.pc = g.virtualStart.toNat)

/-- No run diverges (R199, R202): from every state, after some number of steps no step is enabled, and the run is
complete or aborted. That it stops under these two names is the model's choice (log entry 5). -/
def Obligations.EveryRunEnds : Prop :=
  ∀ s : State, ∃ (n : Nat) (t : State), Host.Core.run Sys2Proof.core n s = .next t ∧
    (step t = .fault .runComplete ∨ ∃ k, step t = .fault (.runAborted k))

/-! ### The invariant, reset and boot -/

/-- A fault status is final (R24): a step that leaves one in a sound state has aborted the walk, and no further step
is enabled. That the next step stops under the name `runAborted` is the model's choice (log entry 5). -/
def Obligations.FaultStatusIsFinal : Prop :=
  ∀ (s t : State) (k : FaultKind), s.Inv → step s = .next t → t.walk.stat = .ofFault k →
    t.walk.phase = .aborted k ∧ (∀ u, step t ≠ .next u) ∧ step t = .fault (.runAborted k)

/-- Every step keeps the invariant: the memory stays canonical and inside the space, and the output stays the
exact listing of the code walked (R194, R195, R198, R23). -/
def Obligations.InvariantIsKept : Prop :=
  ∀ s t : State, s.Inv → step s = .next t → t.Inv

/-- The reset state meets the invariant. -/
def Obligations.ResetMeetsInvariant : Prop := State.reset.Inv

/-- What reset leaves (R34, R9): the status, the phase, the output, a zero AddressSpace, `pc` at the walked
segment's start, and the default parameters. (That this start is 0 is the model's choice, log entry 3.) -/
def Obligations.ResetValues : Prop :=
  State.reset.walk.stat = .running ∧ State.reset.walk.phase = .walking ∧ State.reset.walk.out = [] ∧
  State.reset.walk.pc = State.reset.walk.seg.virtualStart.toNat ∧
  (∀ a, State.reset.mem.byteAt a = 0#8) ∧ State.reset.params.memSize = 4096 ∧
  State.reset.params.immCheckOrder = .fieldsFirst ∧ State.reset.params.mrmovNibbles = .sameAsRmmov ∧
  State.reset.params.haltStopsWalk = false

/-- Every state that a boot leaves meets the invariant. What boot refuses is the model's choice (log entry 13). -/
def Obligations.BootMeetsInvariant : Prop :=
  ∀ (p : Params) (image : List LoadSegment) (entry : Addr16) (s : State), boot p image entry = .next s → s.Inv

/-- After a boot (R232, R231) every segment's bytes stand at its `virtualStart`, every byte no segment covers
is 0, and the walks to come are those of the Code segments in order. What boot refuses is the model's
choice (log entry 13). -/
def Obligations.BootLoadsTheImage : Prop :=
  ∀ (p : Params) (image : List LoadSegment) (entry : Addr16) (s : State), boot p image entry = .next s →
    (∀ g ∈ image, ∀ k, k < g.bytes.length →
      s.mem.byteAt (g.desc.virtualStart.toNat + k) = g.bytes.getD k 0#8) ∧
    (∀ a, (∀ g ∈ image, a < g.desc.virtualStart.toNat ∨ g.desc.segEnd ≤ a) → s.mem.byteAt a = 0#8) ∧
    s.entryPoint = entry ∧ s.params = p ∧
    (∀ c rest, codeSegments image = c :: rest → s.walk = .start c ∧ s.pending = rest)

/-- In a sound walk the entry label is emitted at most once (the sentence of R198 that the spec marks as derived). -/
def Obligations.LabelAtMostOnce : Prop :=
  ∀ s : State, s.Inv → (s.walk.out.filter isLabel).length ≤ 1

/-- Where a run is complete (R201), every one of its walks is in Done, with no fault in its status. (The stop's name
is the model's choice, log entry 5.) -/
def Obligations.CompleteRunsHaveOnlyDoneWalks : Prop :=
  ∀ s : State, s.Inv → step s = .fault .runComplete →
    s.runStatus = .normalCompletion ∧
    ∀ w ∈ s.finished ++ [s.walk], w.phase = .done ∧ (w.stat = .running ∨ w.stat = .halted)

/-- The status of an aborted run (R202) names the fault, the failing `pc` and the raw byte of the failed decode. (The
stop's name is the model's choice, log entry 5.) -/
def Obligations.AbortedRunsNameTheirFailure : Prop :=
  ∀ (s : State) (k : FaultKind), s.Inv → step s = .fault (.runAborted k) →
    ∃ x raw, decode s.params s.mem.byteAt s.walk.pc = .fail ⟨k, x, raw⟩ ∧
      s.runStatus = .abort k s.walk.pc raw

/-! ### Text -/

/-- Rendered text (R90 to R93): the source's examples, the base that is omitted when it is the sentinel, and one
instruction of each other template. Register names but `rcx`, and most operand orders, are general knowledge
(log entry 10). -/
def Obligations.RenderedText : Prop :=
  (Instr.irmovq (.reg 1) 5#64).render = "irmovq 0x5, %rcx" ∧
  (Instr.jmp 0#64).render = "jmp 0x0" ∧
  Instr.halt.render = "halt" ∧
  (Instr.rmmovq (.reg 1) (.reg 5) 0x10#64).render = "rmmovq %rcx, 0x10(%rbp)" ∧
  (Instr.rmmovq (.reg 1) .rnone 0x10#64).render = "rmmovq %rcx, 0x10" ∧
  (Instr.mrmovq (.reg 2) (.reg 1) 8#64).render = "mrmovq 0x8(%rcx), %rdx" ∧
  (Instr.addq (.reg 0) (.reg 3)).render = "addq %rax, %rbx" ∧
  (Instr.call 0x10B#64).render = "call 0x10b" ∧
  (Instr.pushq (.reg 5)).render = "pushq %rbp" ∧
  (Instr.popq (.reg 5)).render = "popq %rbp" ∧
  (Instr.rrmovq (.reg 4) (.reg 5)).render = "rrmovq %rsp, %rbp" ∧
  Instr.nop.render = "nop" ∧ Instr.ret.render = "ret"
end

