-- ==== Sys2Proof/Laws/Decode.lean ====
section
/-! SUPPORT. The laws of the decoder's parts (nibbles, register identifiers, bounds, the immediate, the dispatch
table, the choice of the instruction) and the two inversions of the decoder: when it finds an instruction, and
what a failure says. -/

namespace Sys2Proof

/-! ### Bytes and nibbles -/

@[simp] theorem hiNibble_byteOf : ∀ x y : Nibble, hiNibble (byteOf x y) = x := by decide

@[simp] theorem loNibble_byteOf : ∀ x y : Nibble, loNibble (byteOf x y) = y := by decide

theorem byteOf_hiNibble_loNibble : ∀ b : Byte, byteOf (hiNibble b) (loNibble b) = b := by decide

/-- A byte is its two nibbles. -/
theorem eq_byteOf_iff {b : Byte} {x y : Nibble} : b = byteOf x y ↔ hiNibble b = x ∧ loNibble b = y := by
  constructor
  · rintro rfl
    simp
  · rintro ⟨rfl, rfl⟩
    exact (byteOf_hiNibble_loNibble b).symm

@[simp] theorem RegId.ofNibble_toNibble (r : RegId) : RegId.ofNibble r.toNibble = r := by
  cases r with
  | reg n => revert n; decide
  | rnone => rfl

@[simp] theorem RegId.toNibble_ofNibble : ∀ n : Nibble, (RegId.ofNibble n).toNibble = n := by decide

/-- Register identifiers and nibbles are one and the same (R25). -/
theorem RegId.ofNibble_eq_iff {n : Nibble} {r : RegId} : RegId.ofNibble n = r ↔ n = r.toNibble := by
  constructor
  · rintro rfl
    simp
  · rintro rfl
    simp

@[simp] theorem RegId.ordinary_reg (n : Fin 15) : (RegId.reg n).ordinary = true := rfl
@[simp] theorem RegId.ordinary_rnone : RegId.rnone.ordinary = false := rfl

theorem RegId.ordinary_eq_false {r : RegId} : r.ordinary = false ↔ r = .rnone := by
  cases r <;> simp [RegId.ordinary]

theorem RegId.ordinary_eq_true {r : RegId} : r.ordinary = true ↔ ∃ n, r = .reg n := by
  cases r <;> simp [RegId.ordinary]

/-! ### Bounds -/

/-- The bounds check of several bytes (R11): the first address outside is `max a MEM_SIZE`. -/
theorem Params.firstOutside_eq (p : Params) (a n : Nat) :
    p.firstOutside a n = if n = 0 ∨ a + n ≤ p.memSize then none else some (max a p.memSize) := by
  induction n generalizing a with
  | zero => rfl
  | succ n ih =>
    unfold Params.firstOutside
    by_cases h : p.memSize ≤ a
    · rw [if_pos h, if_neg (by omega), Nat.max_eq_left h]
    · rw [if_neg h, ih (a + 1)]
      by_cases hn : n = 0
      · rw [if_pos (.inl hn), if_pos (by omega)]
      · by_cases h2 : a + 1 + n ≤ p.memSize
        · rw [if_pos (.inr h2), if_pos (by omega)]
        · rw [if_neg (by omega), if_neg (by omega)]
          congr 1
          omega

/-- A length that fits its immediate: the two sit together in every format. -/
theorem Format.immOff_some {f : Format} {off : Nat} (h : f.immOff = some off) :
    (1 ≤ off ∧ off ≤ 2) ∧ f.length = off + immBytes := by
  cases f <;> simp [Format.immOff] at h <;> subst h <;> decide

theorem Format.immOff_none {f : Format} (h : f.immOff = none) : f.length ≤ 2 := by
  cases f <;> simp [Format.immOff] at h <;> decide

theorem Format.one_le_length (f : Format) : 1 ≤ f.length := by cases f <;> decide

theorem Format.length_le_maxLen (f : Format) : f.length ≤ maxLen := by cases f <;> decide

/-- `FieldsFirst`: the second byte, the fields, the last byte, in this order (R112). -/
theorem Params.firstFailure_fieldsFirst {p : Params} {a : Nat} {valid : Bool} (f : Format)
    (ho : p.immCheckOrder = .fieldsFirst) (ha : a < p.memSize) :
    p.firstFailure a f.length f.immOff valid =
      if 2 ≤ f.length ∧ p.memSize ≤ a + 1 then some (.invalidAddress, p.memSize)
      else if valid = false then some (.invalidInstruction, a)
      else if p.memSize < a + f.length then some (.invalidAddress, p.memSize) else none := by
  simp only [Params.firstFailure, ho]
  split
  next h => rw [show a + 1 = p.memSize by omega]
  next h =>
  split
  · rfl
  next hv =>
  cases hi : f.immOff with
  | none => rw [if_neg (by have := Format.immOff_none hi; omega)]
  | some off =>
    obtain ⟨h1, h2⟩ := Format.immOff_some hi
    simp only [Params.firstOutside_eq, immBytes] at h2 ⊢
    split
    next h3 => rw [if_neg (by omega), Option.map_none]
    next h3 => rw [if_pos (by omega), Option.map_some, Nat.max_eq_right (by omega)]

/-- `BoundsFirst`: the last byte, then the fields (R114). -/
theorem Params.firstFailure_boundsFirst {p : Params} {a : Nat} {valid : Bool} (f : Format)
    (ho : p.immCheckOrder = .boundsFirst) (ha : a < p.memSize) :
    p.firstFailure a f.length f.immOff valid =
      if p.memSize < a + f.length then some (.invalidAddress, p.memSize)
      else if valid = false then some (.invalidInstruction, a) else none := by
  have h1 := f.one_le_length
  simp only [Params.firstFailure, ho]
  split
  next h => rw [if_pos h.2, Nat.max_eq_right (by omega)]
  next h => rw [if_neg (show ¬p.memSize < a + f.length by omega)]

/-- Nothing fails exactly when the instruction's bytes fit and its fields are valid, in either order of the
checks. -/
theorem Params.firstFailure_eq_none {p : Params} {a : Nat} {f : Format} {valid : Bool} (ha : a < p.memSize) :
    p.firstFailure a f.length f.immOff valid = none ↔ a + f.length ≤ p.memSize ∧ valid = true := by
  have h1 := f.one_le_length
  cases ho : p.immCheckOrder
  · rw [Params.firstFailure_fieldsFirst f ho ha]
    grind
  · rw [Params.firstFailure_boundsFirst f ho ha]
    grind

/-- What a failure of steps 3 to 5 says (R110): either the bytes do not fit and the first byte outside is at
`MEM_SIZE`, or the fields are invalid. -/
theorem Params.firstFailure_eq_some {p : Params} {a x : Nat} {k : FaultKind} {f : Format} {valid : Bool}
    (ha : a < p.memSize) (h : p.firstFailure a f.length f.immOff valid = some (k, x)) :
    (k = .invalidAddress ∧ x = p.memSize ∧ p.memSize < a + f.length) ∨
      (k = .invalidInstruction ∧ x = a ∧ valid = false) := by
  have key : ∀ {b : FaultKind} {y : Nat}, some (b, y) = some (k, x) → k = b ∧ x = y := by
    intro b y hb
    obtain ⟨rfl, rfl⟩ := Prod.mk.inj (Option.some.inj hb)
    exact ⟨rfl, rfl⟩
  cases ho : p.immCheckOrder
  · rw [Params.firstFailure_fieldsFirst f ho ha] at h
    split at h
    next h1 => obtain ⟨rfl, rfl⟩ := key h; exact .inl ⟨rfl, rfl, by omega⟩
    split at h
    next hv => obtain ⟨rfl, rfl⟩ := key h; exact .inr ⟨rfl, rfl, hv⟩
    split at h
    next h3 => obtain ⟨rfl, rfl⟩ := key h; exact .inl ⟨rfl, rfl, h3⟩
    · exact absurd h (by simp)
  · rw [Params.firstFailure_boundsFirst f ho ha] at h
    split at h
    next h1 => obtain ⟨rfl, rfl⟩ := key h; exact .inl ⟨rfl, rfl, h1⟩
    split at h
    next hv => obtain ⟨rfl, rfl⟩ := key h; exact .inr ⟨rfl, rfl, hv⟩
    · exact absurd h (by simp)

/-! ### The immediate -/

theorem leValue_lt (M : Contents) (a n : Nat) : leValue M a n < 2 ^ (8 * n) := by
  induction n with
  | zero => simp [leValue]
  | succ n ih =>
    have hb : (M (a + n)).toNat < 2 ^ 8 := (M (a + n)).isLt
    have hp : 2 ^ (8 * (n + 1)) = 2 ^ 8 * 2 ^ (8 * n) := by rw [← Nat.pow_add]; congr 1; omega
    have hm : (M (a + n)).toNat * 2 ^ (8 * n) ≤ (2 ^ 8 - 1) * 2 ^ (8 * n) :=
      Nat.mul_le_mul_right _ (by omega)
    simp only [leValue, Nat.mul_comm (2 ^ _) (BitVec.toNat _)]
    rw [Nat.sub_mul] at hm
    have : 1 * 2 ^ (8 * n) ≤ 2 ^ 8 * 2 ^ (8 * n) := Nat.mul_le_mul_right _ (by omega)
    omega

/-- A byte of a little-endian value is the byte that stands there. -/
theorem leValue_byte (M : Contents) (a n i : Nat) (hi : i < n) :
    leValue M a n / 2 ^ (8 * i) % 2 ^ 8 = (M (a + i)).toNat := by
  induction n with
  | zero => omega
  | succ n ih =>
    simp only [leValue, Nat.mul_comm (2 ^ _) (BitVec.toNat _)]
    by_cases h : i = n
    · subst h
      rw [Nat.add_mul_div_right _ _ (Nat.two_pow_pos _), Nat.div_eq_of_lt (leValue_lt M a i), Nat.zero_add]
      exact Nat.mod_eq_of_lt (M (a + i)).isLt
    · have hlt : i < n := by omega
      have he : (2 : Nat) ^ (8 * n) = 2 ^ (8 * (n - i - 1)) * 2 ^ 8 * 2 ^ (8 * i) := by
        rw [← Nat.pow_add, ← Nat.pow_add]; congr 1; omega
      rw [he, ← Nat.mul_assoc, Nat.add_mul_div_right _ _ (Nat.two_pow_pos _), ← Nat.mul_assoc,
        Nat.add_mul_mod_self_right]
      exact ih hlt

/-- A number below `2^(8n)` is the little-endian value of its bytes. -/
theorem leValue_of_bytes (M : Contents) (a n v : Nat) (hv : v < 2 ^ (8 * n))
    (h : ∀ i, i < n → (M (a + i)).toNat = v / 2 ^ (8 * i) % 2 ^ 8) : leValue M a n = v := by
  induction n generalizing v with
  | zero => simp [leValue] at hv ⊢; omega
  | succ n ih =>
    simp only [leValue, Nat.mul_comm (2 ^ _) (BitVec.toNat _)]
    have hb := h n (by omega)
    have hp : 2 ^ (8 * (n + 1)) = 2 ^ (8 * n) * 2 ^ 8 := by rw [← Nat.pow_add]; congr 1
    have hd : v / 2 ^ (8 * n) < 2 ^ 8 := (Nat.div_lt_iff_lt_mul (Nat.two_pow_pos _)).mpr (by
      rw [Nat.mul_comm, ← hp]; exact hv)
    rw [Nat.mod_eq_of_lt hd] at hb
    have hi := ih (v % 2 ^ (8 * n)) (Nat.mod_lt _ (Nat.two_pow_pos _)) fun i hi => by
      rw [h i (by omega)]
      have he : (2 : Nat) ^ (8 * n) = 2 ^ (8 * i) * (2 ^ 8 * 2 ^ (8 * (n - i - 1))) := by
        rw [← Nat.pow_add, ← Nat.pow_add]; congr 1; omega
      rw [he, Nat.mod_mul_right_div_self, Nat.mod_mul_right_mod]
    rw [hi, hb]
    exact Nat.mod_add_div' v _

/-- The immediate is the constant whose encoded bytes stand there (R50, R65). -/
theorem immediateAt_eq_iff {M : Contents} {a : Nat} {c : Word64} :
    immediateAt M a = c ↔ ∀ i, i < immBytes → M (a + i) = c.extractLsb' (8 * i) 8 := by
  constructor
  · rintro rfl i hi
    apply BitVec.eq_of_toNat_eq
    rw [BitVec.extractLsb'_toNat, Nat.shiftRight_eq_div_pow, immediateAt, BitVec.toNat_ofNat,
      Nat.mod_eq_of_lt (leValue_lt M a 8), leValue_byte M a 8 i hi]
  · intro h
    apply BitVec.eq_of_toNat_eq
    rw [immediateAt, BitVec.toNat_ofNat, Nat.mod_eq_of_lt (leValue_lt M a 8)]
    refine leValue_of_bytes M a 8 c.toNat c.isLt fun i hi => ?_
    rw [h i hi, BitVec.extractLsb'_toNat, Nat.shiftRight_eq_div_pow]

/-! ### The dispatch table and the instructions -/

/-- The table entry of an instruction's class has its format, and its predicate holds of the instruction's
fields exactly when the instruction is well formed. -/
theorem Instr.dispatch_iclass (p : Params) (i : Instr) :
    ∃ e, p.dispatch i.iclass = some e ∧ e.fmt = i.format ∧ e.valid i.ifun i.rA i.rB = i.wellFormed p := by
  cases i
  case mrmovq rA rB c =>
    refine ⟨_, rfl, rfl, ?_⟩
    cases h : p.mrmovNibbles <;>
      simp [Entry.valid, Params.mrmovClasses, h, Instr.ifun, Instr.rA, Instr.rB, Instr.wellFormed, admitsIn,
        RegClass.admits]
  all_goals
    refine ⟨_, rfl, rfl, ?_⟩
    simp [Entry.valid, Instr.ifun, Instr.rA, Instr.rB, Instr.wellFormed, admitsIn, RegClass.admits]

/-- Class and subfunction are the opcode byte (R68, R78). -/
theorem Instr.opcodeByte_eq_iff (i : Instr) (b : Byte) :
    (IClass.ofNibble (hiNibble b) = i.iclass ∧ loNibble b = i.ifun) ↔ b = i.opcodeByte := by
  cases i <;> simp only [Instr.iclass, Instr.ifun, Instr.opcodeByte] <;> (revert b; decide)

/-- An instruction is the choice its own class and fields make. -/
theorem Instr.ofFields_self (i : Instr) : Instr.ofFields i.iclass i.ifun i.rA i.rB i.valC = some i := by
  cases i <;> rfl

/-- Where the choice makes an instruction of valid fields, it has these fields. -/
theorem Instr.ofFields_eq_some {p : Params} {c : IClass} {e : Entry} {f : Nibble} {b1 : Byte}
    {v : Option Word64} {i : Instr} (he : p.dispatch c = some e)
    (hv : e.valid f (e.rA b1) (e.rB b1) = true) (hi : v.isSome = e.fmt.immOff.isSome)
    (h : Instr.ofFields c f (e.rA b1) (e.rB b1) v = some i) :
    i.iclass = c ∧ i.ifun = f ∧ i.rA = e.rA b1 ∧ i.rB = e.rB b1 ∧ i.valC = v := by
  have key : ∀ n : Nat, f.toNat = n → n < 16 → f = BitVec.ofNat 4 n := by
    intro n hn hlt
    apply BitVec.eq_of_toNat_eq
    rw [hn, BitVec.toNat_ofNat, Nat.mod_eq_of_lt hlt]
  cases c <;> simp only [Params.dispatch, Option.some.injEq, reduceCtorEq] at he <;> subst he <;>
    cases v <;> simp [Format.immOff] at hi <;>
    simp only [Instr.ofFields] at h <;>
    split at h <;> try cases h <;>
    (rename_i hf; have hf := key _ hf (by decide); subst hf
     simp_all [Entry.rA, Entry.rB, Entry.valid, Format.hasReg, Instr.iclass, Instr.ifun, Instr.rA,
       Instr.rB, Instr.valC, admitsIn, RegClass.admits, RegId.ordinary_eq_false])

/-- A valid subfunction and the fields of the format always name an instruction (R79). -/
theorem Instr.ofFields_isSome {p : Params} {c : IClass} {e : Entry} {f : Nibble} {rA rB : RegId}
    {v : Option Word64} (he : p.dispatch c = some e) (hv : e.valid f rA rB = true)
    (hi : v.isSome = e.fmt.immOff.isSome) : ∃ i, Instr.ofFields c f rA rB v = some i := by
  obtain ⟨hf, -⟩ : f.toNat ≤ e.ifunMax ∧ True := by simp [Entry.valid] at hv; exact ⟨hv.1.1, trivial⟩
  cases c <;> simp only [Params.dispatch, Option.some.injEq, reduceCtorEq] at he <;> subst he <;>
    cases v <;> simp [Format.immOff] at hi <;>
    simp only [Instr.ofFields] <;> split <;> first | exact ⟨_, rfl⟩ | (exfalso; grind)

theorem Entry.valC_isSome (e : Entry) (M : Contents) (a : Nat) :
    (e.valC M a).isSome = e.fmt.immOff.isSome := by simp [Entry.valC]

/-! ### The decoder -/

/-- No exception of an instruction's rule holds exactly when its bytes fit and it is well formed. -/
theorem Machine.Instr.failure_eq_none {p : Params} {M : Contents} {a : Nat} {i : Instr} :
    Machine.Instr.failure p M a i = none ↔ a + i.length ≤ p.memSize ∧ i.wellFormed p = true := by
  have h1 := i.format.one_le_length
  unfold Machine.Instr.failure Instr.length
  split
  · constructor
    · simp
    · omega
  · rw [Option.map_eq_none_iff, Params.firstFailure_eq_none (by omega)]

/-- When the decoder finds an instruction: its bytes fit, it is well formed, and its opcode byte, register byte
and immediate stand at the address. -/
theorem decodeInstr_eq_instr {p : Params} {M : Contents} {a : Nat} {i : Instr} :
    decodeInstr p M a = .instr i ↔
      (a + i.length ≤ p.memSize ∧ i.wellFormed p = true) ∧ M a = i.opcodeByte ∧
      (i.format.hasReg = true → M (a + 1) = i.registerByte) ∧
      i.valC = i.format.immOff.map fun off => immediateAt M (a + off) := by
  have h1 := i.format.one_le_length
  obtain ⟨ei, hei, hfmt, hval⟩ := Instr.dispatch_iclass p i
  constructor
  · intro h
    unfold decodeInstr at h
    split at h
    · exact Decoded.noConfusion h
    next ha =>
    split at h
    · exact Decoded.noConfusion h
    next e he =>
    split at h
    · exact Decoded.noConfusion h
    next hff =>
    rw [Params.firstFailure_eq_none (by omega)] at hff
    split at h
    next j hj =>
      obtain rfl : j = i := by injection h
      obtain ⟨hc, hf, hA, hB, hC⟩ := Instr.ofFields_eq_some he hff.2 (Entry.valC_isSome e M a) hj
      rw [← hc, hei] at he
      obtain rfl : ei = e := Option.some.inj he
      rw [← hA, ← hB, ← hf, hval] at hff
      refine ⟨⟨by rw [Instr.length, ← hfmt]; exact hff.1, hff.2⟩,
        (Instr.opcodeByte_eq_iff j _).mp ⟨hc.symm, hf.symm⟩, ?_, ?_⟩
      · intro hr
        rw [← hfmt] at hr
        rw [Entry.rA, if_pos hr, eq_comm, RegId.ofNibble_eq_iff] at hA
        rw [Entry.rB, if_pos hr, eq_comm, RegId.ofNibble_eq_iff] at hB
        exact eq_byteOf_iff.mpr ⟨hA, hB⟩
      · rw [hC, Entry.valC, hfmt]
    · exact Decoded.noConfusion h
  · rintro ⟨⟨hlen, hwf⟩, hop, hreg, hC⟩
    rw [Instr.length] at hlen
    obtain ⟨hc, hf⟩ := (Instr.opcodeByte_eq_iff i _).mpr hop
    have hA : ei.rA (M (a + 1)) = i.rA := by
      unfold Entry.rA
      split
      next hr =>
        rw [hfmt] at hr
        rw [RegId.ofNibble_eq_iff]
        exact (eq_byteOf_iff.mp (hreg hr)).1
      next hr => rw [hfmt] at hr; cases i <;> first | rfl | exact absurd rfl hr
    have hB : ei.rB (M (a + 1)) = i.rB := by
      unfold Entry.rB
      split
      next hr =>
        rw [hfmt] at hr
        rw [RegId.ofNibble_eq_iff]
        exact (eq_byteOf_iff.mp (hreg hr)).2
      next hr => rw [hfmt] at hr; cases i <;> first | rfl | exact absurd rfl hr
    have hV : ei.valC M a = i.valC := by rw [hC, Entry.valC, hfmt]
    have hff : p.firstFailure a ei.fmt.length ei.fmt.immOff (ei.valid i.ifun i.rA i.rB) = none := by
      rw [Params.firstFailure_eq_none (by omega), hfmt, hval]
      exact ⟨hlen, hwf⟩
    unfold decodeInstr
    rw [if_neg (by omega), hc, hei]
    simp only [hA, hB, hf, hff, hV, Instr.ofFields_self]

/-- What a decode failure says (R108, R110, R112). -/
theorem decodeInstr_eq_failed {p : Params} {M : Contents} {a : Nat} {f : Failure}
    (h : decodeInstr p M a = .failed f) :
    (p.memSize ≤ a ∧ f = ⟨.invalidAddress, a, none⟩) ∨
    (a < p.memSize ∧ p.dispatch (IClass.ofNibble (hiNibble (M a))) = none ∧
      f = ⟨.invalidInstruction, a, some (M a)⟩) ∨
    (a < p.memSize ∧ ∃ e k x, p.dispatch (IClass.ofNibble (hiNibble (M a))) = some e ∧
      p.firstFailure a e.fmt.length e.fmt.immOff
        (e.valid (loNibble (M a)) (e.rA (M (a + 1))) (e.rB (M (a + 1)))) = some (k, x) ∧
      f = ⟨k, x, some (M a)⟩) := by
  unfold decodeInstr at h
  split at h
  next ha => exact .inl ⟨ha, by injection h with h; exact h.symm⟩
  next ha =>
  split at h
  next he => exact .inr (.inl ⟨by omega, he, by injection h with h; exact h.symm⟩)
  next e he =>
  split at h
  next k x hff => exact .inr (.inr ⟨by omega, e, k, x, he, hff, by injection h with h; exact h.symm⟩)
  next hff =>
    rw [Params.firstFailure_eq_none (by omega)] at hff
    obtain ⟨j, hj⟩ := Instr.ofFields_isSome he hff.2 (Entry.valC_isSome e M a)
    rw [hj] at h
    exact Decoded.noConfusion h

/-- The record of a successful decode is that of the instruction found (R31). -/
theorem decode_eq_ok {p : Params} {M : Contents} {a : Nat} {ins : Ins} :
    decode p M a = .ok ins ↔ ∃ i, decodeInstr p M a = .instr i ∧ ins = i.record a := by
  unfold decode
  cases decodeInstr p M a with
  | instr i => simp [eq_comm]
  | failed f => simp

theorem decode_eq_fail {p : Params} {M : Contents} {a : Nat} {f : Failure} :
    decode p M a = .fail f ↔ decodeInstr p M a = .failed f := by
  unfold decode
  cases decodeInstr p M a <;> simp

/-- Outside the space nothing is read: step 1 of R103. -/
theorem decode_of_outside {p : Params} {M : Contents} {a : Nat} (ha : p.memSize ≤ a) :
    decode p M a = .fail ⟨.invalidAddress, a, none⟩ := by
  unfold decode decodeInstr
  rw [if_pos ha]

/-- An opcode byte of no class fails (R104). -/
theorem decode_of_invalid {p : Params} {M : Contents} {a : Nat} (ha : a < p.memSize)
    (h : p.dispatch (IClass.ofNibble (hiNibble (M a))) = none) :
    decode p M a = .fail ⟨.invalidInstruction, a, some (M a)⟩ := by
  unfold decode decodeInstr
  rw [if_neg (by omega), h]

/-- The first failure in either order of the checks (R112). -/
theorem Params.firstFailure_eq {p : Params} {a : Nat} {valid : Bool} (f : Format) (ha : a < p.memSize) :
    p.firstFailure a f.length f.immOff valid =
      if 2 ≤ f.length ∧ p.memSize ≤ a + 1 then some (.invalidAddress, p.memSize)
      else if p.immCheckOrder = .boundsFirst ∧ p.memSize < a + f.length then some (.invalidAddress, p.memSize)
      else if valid = false then some (.invalidInstruction, a)
      else if p.memSize < a + f.length then some (.invalidAddress, p.memSize) else none := by
  cases ho : p.immCheckOrder
  · rw [Params.firstFailure_fieldsFirst f ho ha]
    simp
  · rw [Params.firstFailure_boundsFirst f ho ha]
    have := f.one_le_length
    grind

/-- The decode of an opcode byte whose class has a table entry: the first failure, or the record of the fields. -/
theorem decode_of_entry {p : Params} {M : Contents} {a : Nat} {e : Entry} (ha : a < p.memSize)
    (he : p.dispatch (IClass.ofNibble (hiNibble (M a))) = some e) :
    decode p M a =
      match p.firstFailure a e.fmt.length e.fmt.immOff
          (e.valid (loNibble (M a)) (e.rA (M (a + 1))) (e.rB (M (a + 1)))) with
      | some (k, x) => .fail ⟨k, x, some (M a)⟩
      | none => .ok
        { icode := IClass.ofNibble (hiNibble (M a))
          ifun := (loNibble (M a)).setWidth 8
          rA := e.rA (M (a + 1))
          rB := e.rB (M (a + 1))
          valC := e.valC M a
          len := e.fmt.length
          valP := a + e.fmt.length } := by
  have hd : decode p M a = match decodeInstr p M a with
    | .instr i => .ok (i.record a)
    | .failed f => .fail f := rfl
  rw [hd]
  unfold decodeInstr
  rw [if_neg (by omega), he]
  cases h : p.firstFailure a e.fmt.length e.fmt.immOff
      (e.valid (loNibble (M a)) (e.rA (M (a + 1))) (e.rB (M (a + 1)))) with
  | some kx => simp only [h]
  | none =>
    have hv := ((Params.firstFailure_eq_none ha).mp h).2
    obtain ⟨i, hi⟩ := Instr.ofFields_isSome he hv (Entry.valC_isSome e M a)
    obtain ⟨h1, h2, h3, h4, h5⟩ := Instr.ofFields_eq_some he hv (Entry.valC_isSome e M a) hi
    obtain ⟨e', he', hf, -⟩ := Instr.dispatch_iclass p i
    rw [h1, he] at he'
    obtain rfl := Option.some.inj he'
    simp only [h, hi]
    simp [Instr.record, h1, h2, h3, h4, h5, Instr.length, hf]

/-- Every instruction is at least one byte long (R66). -/
theorem Instr.one_le_length (i : Instr) : 1 ≤ i.length := i.format.one_le_length

end Sys2Proof
end

