-- ==== Sys2Proof/Laws/Memory.lean ====
section
/-! SUPPORT. The laws of the AddressSpace as data: read after write, writes leave every other byte alone, every
write keeps the canonical form and the bounds, and canonical memories that read alike are equal. -/

namespace Sys2Proof.Machine

@[simp] theorem Memory.byteAt_nil (a : Nat) : Memory.byteAt [] a = unlistedByte := rfl

theorem Memory.byteAt_cons (x : Nat) (v : Byte) (m : Memory) (a : Nat) :
    Memory.byteAt ((x, v) :: m) a = if a = x then v else m.byteAt a := rfl

theorem Memory.wf_cons {x : Nat} {v : Byte} {m : Memory} :
    Memory.wf ((x, v) :: m) = true ↔ v ≠ unlistedByte ∧ (∀ c ∈ m, x < c.1) ∧ m.wf = true := by
  simp [Memory.wf, and_assoc]

/-- An address below every listed one reads as unlisted. -/
theorem Memory.byteAt_of_below {m : Memory} {a : Nat} (h : ∀ c ∈ m, a < c.1) : m.byteAt a = unlistedByte := by
  induction m with
  | nil => rfl
  | cons c m ih =>
    obtain ⟨x, v⟩ := c
    have hx : a < x := h (x, v) (by simp)
    rw [Memory.byteAt_cons, if_neg (by omega)]
    exact ih fun c hc => h c (by simp [hc])

theorem Memory.byteAt_putFront {m : Memory} {a : Nat} (b : Byte) (h : ∀ c ∈ m, a < c.1) (y : Nat) :
    (Memory.putFront a b m).byteAt y = if y = a then b else m.byteAt y := by
  unfold Memory.putFront
  split
  · next hb =>
    split
    · next hy => rw [hy, Memory.byteAt_of_below h, hb]
    · rfl
  · rfl

theorem Memory.wf_putFront {m : Memory} {a : Nat} (b : Byte) (h : ∀ c ∈ m, a < c.1) (hm : m.wf = true) :
    (Memory.putFront a b m).wf = true := by
  unfold Memory.putFront
  split
  · exact hm
  · next hb => exact Memory.wf_cons.mpr ⟨hb, h, hm⟩

theorem Memory.mem_putFront {m : Memory} {a : Nat} {b : Byte} {c : Host.Cell}
    (h : c ∈ Memory.putFront a b m) : c = (a, b) ∨ c ∈ m := by
  unfold Memory.putFront at h
  split at h
  · exact .inr h
  · simpa using h

/-- What a write lists is the written byte or was listed. -/
theorem Memory.mem_store {m : Memory} {a : Nat} {b : Byte} {c : Host.Cell} (h : c ∈ m.store a b) :
    c = (a, b) ∨ c ∈ m := by
  induction m with
  | nil => exact Memory.mem_putFront h
  | cons d m ih =>
    obtain ⟨x, v⟩ := d
    unfold Memory.store at h
    split at h
    · exact Memory.mem_putFront h
    · split at h
      · rcases Memory.mem_putFront h with h | h
        · exact .inl h
        · exact .inr (by simp [h])
      · rcases List.mem_cons.mp h with h | h
        · exact .inr (by simp [h])
        · rcases ih h with h | h
          · exact .inl h
          · exact .inr (by simp [h])

/-- Read after write: the written byte at its address, the old byte everywhere else. -/
theorem Memory.byteAt_store {m : Memory} (hm : m.wf = true) (a : Nat) (b : Byte) (y : Nat) :
    (m.store a b).byteAt y = if y = a then b else m.byteAt y := by
  induction m with
  | nil => exact Memory.byteAt_putFront b (by simp) y
  | cons d m ih =>
    obtain ⟨x, v⟩ := d
    obtain ⟨-, hlt, hm⟩ := Memory.wf_cons.mp hm
    unfold Memory.store
    split
    · next hax =>
      refine Memory.byteAt_putFront b ?_ y
      intro c hc
      rcases List.mem_cons.mp hc with rfl | hc
      · exact hax
      · have := hlt c hc; omega
    · split
      · next hax =>
        subst hax
        rw [Memory.byteAt_putFront b hlt, Memory.byteAt_cons]
        split <;> rfl
      · next h1 h2 =>
        rw [Memory.byteAt_cons, Memory.byteAt_cons, ih hm]
        split
        · next h => rw [if_neg (by omega)]
        · rfl

/-- A write keeps the canonical form. -/
theorem Memory.wf_store {m : Memory} (hm : m.wf = true) (a : Nat) (b : Byte) : (m.store a b).wf = true := by
  induction m with
  | nil => exact Memory.wf_putFront b (by simp) rfl
  | cons d m ih =>
    obtain ⟨x, v⟩ := d
    obtain ⟨hv, hlt, hwf⟩ := Memory.wf_cons.mp hm
    unfold Memory.store
    split
    · next hax =>
      refine Memory.wf_putFront b ?_ hm
      intro c hc
      rcases List.mem_cons.mp hc with rfl | hc
      · exact hax
      · have := hlt c hc; omega
    · split
      · next hax => subst hax; exact Memory.wf_putFront b hlt hwf
      · refine Memory.wf_cons.mpr ⟨hv, ?_, ih hwf⟩
        intro c hc
        rcases Memory.mem_store hc with rfl | hc
        · show x < a; omega
        · exact hlt c hc

/-- A write inside the space keeps the memory inside it. -/
theorem Memory.within_store {m : Memory} {n a : Nat} {b : Byte} (hm : m.within n = true) (ha : a < n) :
    (m.store a b).within n = true := by
  simp only [Memory.within, List.all_eq_true, decide_eq_true_eq] at hm ⊢
  intro c hc
  rcases Memory.mem_store hc with rfl | hc
  · exact ha
  · exact hm c hc

/-- Writing several bytes keeps the canonical form. -/
theorem Memory.wf_storeBytes {m : Memory} (hm : m.wf = true) (a : Nat) (bs : List Byte) :
    (m.storeBytes a bs).wf = true := by
  induction bs generalizing m a with
  | nil => exact hm
  | cons b bs ih => exact ih (Memory.wf_store hm a b) (a + 1)

theorem Memory.within_storeBytes {m : Memory} {n : Nat} (hm : m.within n = true) (a : Nat) (bs : List Byte)
    (h : a + bs.length ≤ n) : (m.storeBytes a bs).within n = true := by
  induction bs generalizing m a with
  | nil => exact hm
  | cons b bs ih =>
    simp only [List.length_cons] at h
    exact ih (Memory.within_store hm (by omega)) (a + 1) (by omega)

/-- Reading after writing several bytes: inside them the byte written there, outside the old byte. -/
theorem Memory.byteAt_storeBytes {m : Memory} (hm : m.wf = true) (a : Nat) (bs : List Byte) (y : Nat) :
    (m.storeBytes a bs).byteAt y =
      if a ≤ y ∧ y < a + bs.length then bs.getD (y - a) unlistedByte else m.byteAt y := by
  induction bs generalizing m a with
  | nil => rw [if_neg (by simp only [List.length_nil]; omega)]; rfl
  | cons b bs ih =>
    show ((m.store a b).storeBytes (a + 1) bs).byteAt y = _
    rw [ih (Memory.wf_store hm a b) (a + 1), Memory.byteAt_store hm]
    simp only [List.length_cons]
    by_cases h1 : a + 1 ≤ y ∧ y < a + 1 + bs.length
    · rw [if_pos h1, if_pos (by omega)]
      obtain ⟨k, hk⟩ : ∃ k, y - a = k + 1 := ⟨y - a - 1, by omega⟩
      rw [hk, List.getD_cons_succ]
      congr 1
      omega
    · rw [if_neg h1]
      by_cases h2 : y = a
      · subst h2
        rw [if_pos rfl, if_pos (by omega), Nat.sub_self]
        rfl
      · rw [if_neg h2, if_neg (by omega)]

/-- Canonical memories that read alike at every address are equal. -/
theorem Memory.ext_byteAt {m n : Memory} (hm : m.wf = true) (hn : n.wf = true)
    (h : ∀ a, m.byteAt a = n.byteAt a) : m = n := by
  induction m generalizing n with
  | nil =>
    cases n with
    | nil => rfl
    | cons d n =>
      obtain ⟨y, w⟩ := d
      have := h y
      rw [Memory.byteAt_cons, if_pos rfl, Memory.byteAt_nil] at this
      exact absurd this.symm (Memory.wf_cons.mp hn).1
  | cons c m ih =>
    obtain ⟨x, v⟩ := c
    obtain ⟨hv, hlt, hm'⟩ := Memory.wf_cons.mp hm
    cases n with
    | nil =>
      have := h x
      rw [Memory.byteAt_cons, if_pos rfl, Memory.byteAt_nil] at this
      exact absurd this hv
    | cons d n =>
      obtain ⟨y, w⟩ := d
      obtain ⟨hw, hlt', hn'⟩ := Memory.wf_cons.mp hn
      have hx := h x
      have hy := h y
      rw [Memory.byteAt_cons, Memory.byteAt_cons] at hx hy
      have hxy : x = y := by
        rcases Nat.lt_trichotomy x y with hlt1 | heq | hgt
        · rw [if_pos rfl, if_neg (by omega), Memory.byteAt_of_below
            (fun c hc => by have := hlt' c hc; omega)] at hx
          exact absurd hx hv
        · exact heq
        · rw [if_neg (by omega), if_pos rfl, Memory.byteAt_of_below
            (fun c hc => by have := hlt c hc; omega)] at hy
          exact absurd hy.symm hw
      subst hxy
      rw [if_pos rfl, if_pos rfl] at hx
      subst hx
      congr 1
      refine ih hm' hn' fun a => ?_
      by_cases ha : a = x
      · subst ha
        rw [Memory.byteAt_of_below hlt, Memory.byteAt_of_below hlt']
      · have := h a
        rwa [Memory.byteAt_cons, Memory.byteAt_cons, if_neg ha, if_neg ha] at this

end Sys2Proof.Machine
end

