-- ==== Sys2Proof/Laws/State.lean ====
section
/-! SUPPORT. One lemma per field per update of the state, so that no proof unfolds a record update. -/

namespace Sys2Proof.Machine

section Emit
variable (e : Event) (s : State)
@[simp] theorem State.emit_params : (s.emit e).params = s.params := rfl
@[simp] theorem State.emit_mem : (s.emit e).mem = s.mem := rfl
@[simp] theorem State.emit_entryPoint : (s.emit e).entryPoint = s.entryPoint := rfl
@[simp] theorem State.emit_pending : (s.emit e).pending = s.pending := rfl
@[simp] theorem State.emit_finished : (s.emit e).finished = s.finished := rfl
@[simp] theorem State.emit_contents : (s.emit e).contents = s.contents := rfl
@[simp] theorem State.emit_seg : (s.emit e).walk.seg = s.walk.seg := rfl
@[simp] theorem State.emit_pc : (s.emit e).walk.pc = s.walk.pc := rfl
@[simp] theorem State.emit_stat : (s.emit e).walk.stat = s.walk.stat := rfl
@[simp] theorem State.emit_phase : (s.emit e).walk.phase = s.walk.phase := rfl
@[simp] theorem State.emit_out : (s.emit e).walk.out = s.walk.out ++ [e] := rfl
end Emit

section EmitLabel
variable (s : State)
@[simp] theorem State.emitLabel_params : s.emitLabel.params = s.params := by unfold emitLabel; split <;> rfl
@[simp] theorem State.emitLabel_mem : s.emitLabel.mem = s.mem := by unfold emitLabel; split <;> rfl
@[simp] theorem State.emitLabel_entryPoint : s.emitLabel.entryPoint = s.entryPoint := by
  unfold emitLabel; split <;> rfl
@[simp] theorem State.emitLabel_pending : s.emitLabel.pending = s.pending := by unfold emitLabel; split <;> rfl
@[simp] theorem State.emitLabel_finished : s.emitLabel.finished = s.finished := by
  unfold emitLabel; split <;> rfl
@[simp] theorem State.emitLabel_contents : s.emitLabel.contents = s.contents := by
  unfold emitLabel; split <;> rfl
@[simp] theorem State.emitLabel_seg : s.emitLabel.walk.seg = s.walk.seg := by unfold emitLabel; split <;> rfl
@[simp] theorem State.emitLabel_pc : s.emitLabel.walk.pc = s.walk.pc := by unfold emitLabel; split <;> rfl
@[simp] theorem State.emitLabel_stat : s.emitLabel.walk.stat = s.walk.stat := by unfold emitLabel; split <;> rfl
@[simp] theorem State.emitLabel_phase : s.emitLabel.walk.phase = s.walk.phase := by
  unfold emitLabel; split <;> rfl
/-- The one field a label changes (R198). -/
theorem State.emitLabel_out : s.emitLabel.walk.out =
    s.walk.out ++ (if s.walk.pc = s.entryPoint.toNat then [.label s.walk.pc] else []) := by
  unfold emitLabel; split <;> simp
end EmitLabel

section TakeFault
variable (f : Failure) (s : State)
@[simp] theorem State.takeFault_params : (s.takeFault f).params = s.params := rfl
@[simp] theorem State.takeFault_mem : (s.takeFault f).mem = s.mem := rfl
@[simp] theorem State.takeFault_entryPoint : (s.takeFault f).entryPoint = s.entryPoint := rfl
@[simp] theorem State.takeFault_pending : (s.takeFault f).pending = s.pending := rfl
@[simp] theorem State.takeFault_finished : (s.takeFault f).finished = s.finished := rfl
@[simp] theorem State.takeFault_contents : (s.takeFault f).contents = s.contents := rfl
@[simp] theorem State.takeFault_seg : (s.takeFault f).walk.seg = s.walk.seg := rfl
@[simp] theorem State.takeFault_pc : (s.takeFault f).walk.pc = s.walk.pc := rfl
@[simp] theorem State.takeFault_stat : (s.takeFault f).walk.stat = .ofFault f.kind := rfl
@[simp] theorem State.takeFault_phase : (s.takeFault f).walk.phase = .aborted f.kind := rfl
@[simp] theorem State.takeFault_out :
    (s.takeFault f).walk.out = s.walk.out ++ [.diagnostic f.kind s.walk.pc f.addr f.raw] := rfl
end TakeFault

section Retire
variable (i : Instr) (s : State)
@[simp] theorem State.retire_params : (s.retire i).params = s.params := rfl
@[simp] theorem State.retire_mem : (s.retire i).mem = s.mem := rfl
@[simp] theorem State.retire_entryPoint : (s.retire i).entryPoint = s.entryPoint := rfl
@[simp] theorem State.retire_pending : (s.retire i).pending = s.pending := rfl
@[simp] theorem State.retire_finished : (s.retire i).finished = s.finished := rfl
@[simp] theorem State.retire_contents : (s.retire i).contents = s.contents := rfl
@[simp] theorem State.retire_seg : (s.retire i).walk.seg = s.walk.seg := rfl
@[simp] theorem State.retire_pc : (s.retire i).walk.pc = s.walk.pc + i.length := rfl
@[simp] theorem State.retire_stat : (s.retire i).walk.stat = s.walk.stat.afterOk i.iclass := rfl
@[simp] theorem State.retire_phase : (s.retire i).walk.phase = s.walk.phase.afterOk s.params i.iclass := rfl
@[simp] theorem State.retire_out : (s.retire i).walk.out = s.walk.out ++
    [.line s.walk.pc (bytesAt s.contents s.walk.pc i.length) (i.record s.walk.pc)] := rfl
end Retire

section EndWalk
variable (s : State)
@[simp] theorem State.endWalk_params : s.endWalk.params = s.params := rfl
@[simp] theorem State.endWalk_mem : s.endWalk.mem = s.mem := rfl
@[simp] theorem State.endWalk_entryPoint : s.endWalk.entryPoint = s.entryPoint := rfl
@[simp] theorem State.endWalk_pending : s.endWalk.pending = s.pending := rfl
@[simp] theorem State.endWalk_finished : s.endWalk.finished = s.finished := rfl
@[simp] theorem State.endWalk_contents : s.endWalk.contents = s.contents := rfl
@[simp] theorem State.endWalk_seg : s.endWalk.walk.seg = s.walk.seg := rfl
@[simp] theorem State.endWalk_pc : s.endWalk.walk.pc = s.walk.pc := rfl
@[simp] theorem State.endWalk_stat : s.endWalk.walk.stat = s.walk.stat := rfl
@[simp] theorem State.endWalk_phase : s.endWalk.walk.phase = .done := rfl
@[simp] theorem State.endWalk_out : s.endWalk.walk.out = s.walk.out := rfl
end EndWalk

section Start
variable (g : Segment)
@[simp] theorem Walk.start_seg : (Walk.start g).seg = g := rfl
@[simp] theorem Walk.start_pc : (Walk.start g).pc = g.virtualStart.toNat := rfl
@[simp] theorem Walk.start_stat : (Walk.start g).stat = .running := rfl
@[simp] theorem Walk.start_phase : (Walk.start g).phase = .walking := rfl
@[simp] theorem Walk.start_out : (Walk.start g).out = [] := rfl
end Start

/-- A label changes the output only (R198). -/
theorem State.emitLabel_eq (s : State) : s.emitLabel =
    { s with walk := { s.walk with out :=
        s.walk.out ++ (if s.walk.pc = s.entryPoint.toNat then [.label s.walk.pc] else []) } } := by
  unfold emitLabel emit
  split <;> simp

/-- Everything the start of a further walk does (R191, R201). -/
theorem State.nextWalk_eq_some {s t : State} : s.nextWalk = some t ↔
    ∃ g rest, s.pending = g :: rest ∧
      t = { s with walk := .start g, pending := rest, finished := s.finished ++ [s.walk] } := by
  unfold nextWalk
  cases s.pending with
  | nil => simp
  | cons g rest =>
    constructor
    · intro h
      exact ⟨g, rest, rfl, (Option.some.inj h).symm⟩
    · rintro ⟨_, _, hp, rfl⟩
      obtain ⟨rfl, rfl⟩ := List.cons.inj hp
      rfl

theorem State.nextWalk_eq_none {s : State} : s.nextWalk = none ↔ s.pending = [] := by
  unfold nextWalk
  cases s.pending <;> simp

end Sys2Proof.Machine
end

