-- ==== Sys2Proof/Laws/Ops.lean ====
section
/-! SUPPORT. What each shared operation can do, said once: completing an instruction, the meanings, the
decode at the program counter, and the loader. -/

namespace Sys2Proof.Machine

/-- An instruction whose bytes fit and whose operands are legal has its effect (R194). -/
theorem State.complete_of_fits {s : State} {i : Instr} (h : s.walk.pc + i.length ≤ s.params.memSize)
    (hw : i.wellFormed s.params = true) : s.complete i = s.retire i := by
  unfold State.complete
  rw [Instr.failure_eq_none.mpr ⟨h, hw⟩]

/-- An instruction completes in one of two ways: its fault is taken, or it has its effect. -/
theorem State.complete_cases (s : State) (i : Instr) :
    (∃ f, Instr.failure s.params s.contents s.walk.pc i = some f ∧ s.complete i = s.takeFault f) ∨
    (s.walk.pc + i.length ≤ s.params.memSize ∧ i.wellFormed s.params = true ∧ s.complete i = s.retire i) := by
  cases h : Instr.failure s.params s.contents s.walk.pc i with
  | some f => exact .inl ⟨f, rfl, by unfold State.complete; rw [h]⟩
  | none =>
    obtain ⟨h1, h2⟩ := Instr.failure_eq_none.mp h
    exact .inr ⟨h1, h2, State.complete_of_fits h1 h2⟩

/-- Every meaning is the completion of its instruction. -/
theorem exec_eq (i : Instr) (s : State) : exec i s = .next (s.complete i) := by cases i <;> rfl

/-- An instruction found by the decoder has its effect. -/
theorem State.complete_of_decodeHere {s : State} {i : Instr} (h : s.decodeHere = .instr i) :
    s.complete i = s.retire i := by
  obtain ⟨⟨h1, h2⟩, -⟩ := decodeInstr_eq_instr.mp h
  exact State.complete_of_fits h1 h2

@[simp] theorem State.emitLabel_decodeHere (s : State) : s.emitLabel.decodeHere = s.decodeHere := by
  simp [State.decodeHere]

/-- Loading segments keeps the canonical form. -/
theorem loadSegments_wf {m : Memory} (hm : m.wf = true) (image : List LoadSegment) :
    (loadSegments m image).wf = true := by
  induction image generalizing m with
  | nil => exact hm
  | cons g rest ih => exact ih (Memory.wf_storeBytes hm _ _)

/-- Loading segments that fit the space keeps the memory inside it. -/
theorem loadSegments_within {m : Memory} {n : Nat} (hm : m.within n = true) (image : List LoadSegment)
    (h : ∀ g ∈ image, g.desc.virtualStart.toNat + g.bytes.length ≤ n) :
    (loadSegments m image).within n = true := by
  induction image generalizing m with
  | nil => exact hm
  | cons g rest ih =>
    exact ih (Memory.within_storeBytes hm _ _ (h g (by simp))) fun g' hg' => h g' (by simp [hg'])

/-- What a successful boot says: the image is well formed, and the state is the start of the first walk. -/
theorem boot_eq_next {p : Params} {image : List LoadSegment} {entry : Addr16} {s : State}
    (h : boot p image entry = .next s) :
    p.wf = true ∧ (∀ g ∈ image, g.bytes.length = g.desc.size.toNat ∧ g.desc.segEnd ≤ p.memSize) ∧
      disjointSegments image = true ∧
      s = bootState p (loadSegments [] image) entry (codeSegments image) := by
  unfold boot at h
  split at h
  · exact Host.Outcome.noConfusion rfl rfl rfl (heq_of_eq h)
  split at h
  · exact Host.Outcome.noConfusion rfl rfl rfl (heq_of_eq h)
  split at h
  · exact Host.Outcome.noConfusion rfl rfl rfl (heq_of_eq h)
  split at h
  · exact Host.Outcome.noConfusion rfl rfl rfl (heq_of_eq h)
  next h1 h2 h3 h4 =>
    refine ⟨by simpa using h1, fun g hg => ?_, by simpa using h4, by injection h with h; exact h.symm⟩
    simp only [List.any_eq_true, decide_eq_true_eq, not_exists, not_and, ne_eq, Decidable.not_not] at h2 h3
    exact ⟨h2 g hg, by have := h3 g hg; omega⟩

end Sys2Proof.Machine
end

