-- ==== Sys2Proof/Laws/PerInstr.lean ====
section
/-! SUPPORT. Per-instruction laws. Family Encoding: the encoded bytes of an instruction are as many as its
length (R65, R66) and begin with its opcode byte, whose nibbles name its class and its subfunction (R68). -/

namespace Sys2Proof.Laws.Encoding

/-- The law of one instruction. -/
def Statement (i : Instr) : Prop :=
  (encode i).length = i.length ∧ (encode i).head? = some i.opcodeByte ∧
    IClass.ofNibble (hiNibble i.opcodeByte) = i.iclass ∧ loNibble i.opcodeByte = i.ifun

theorem halt : Statement .halt :=
  ⟨rfl, rfl, (Instr.opcodeByte_eq_iff _ _).mpr rfl⟩
theorem nop : Statement .nop :=
  ⟨rfl, rfl, (Instr.opcodeByte_eq_iff _ _).mpr rfl⟩
theorem rrmovq (rA rB : RegId) : Statement (.rrmovq rA rB) :=
  ⟨rfl, rfl, (Instr.opcodeByte_eq_iff _ _).mpr rfl⟩
theorem cmovle (rA rB : RegId) : Statement (.cmovle rA rB) :=
  ⟨rfl, rfl, (Instr.opcodeByte_eq_iff _ _).mpr rfl⟩
theorem cmovl (rA rB : RegId) : Statement (.cmovl rA rB) :=
  ⟨rfl, rfl, (Instr.opcodeByte_eq_iff _ _).mpr rfl⟩
theorem cmove (rA rB : RegId) : Statement (.cmove rA rB) :=
  ⟨rfl, rfl, (Instr.opcodeByte_eq_iff _ _).mpr rfl⟩
theorem cmovne (rA rB : RegId) : Statement (.cmovne rA rB) :=
  ⟨rfl, rfl, (Instr.opcodeByte_eq_iff _ _).mpr rfl⟩
theorem cmovge (rA rB : RegId) : Statement (.cmovge rA rB) :=
  ⟨rfl, rfl, (Instr.opcodeByte_eq_iff _ _).mpr rfl⟩
theorem cmovg (rA rB : RegId) : Statement (.cmovg rA rB) :=
  ⟨rfl, rfl, (Instr.opcodeByte_eq_iff _ _).mpr rfl⟩
theorem irmovq (rB : RegId) (valC : Word64) : Statement (.irmovq rB valC) :=
  ⟨rfl, rfl, (Instr.opcodeByte_eq_iff _ _).mpr rfl⟩
theorem rmmovq (rA rB : RegId) (valC : Word64) : Statement (.rmmovq rA rB valC) :=
  ⟨rfl, rfl, (Instr.opcodeByte_eq_iff _ _).mpr rfl⟩
theorem mrmovq (rA rB : RegId) (valC : Word64) : Statement (.mrmovq rA rB valC) :=
  ⟨rfl, rfl, (Instr.opcodeByte_eq_iff _ _).mpr rfl⟩
theorem addq (rA rB : RegId) : Statement (.addq rA rB) :=
  ⟨rfl, rfl, (Instr.opcodeByte_eq_iff _ _).mpr rfl⟩
theorem subq (rA rB : RegId) : Statement (.subq rA rB) :=
  ⟨rfl, rfl, (Instr.opcodeByte_eq_iff _ _).mpr rfl⟩
theorem andq (rA rB : RegId) : Statement (.andq rA rB) :=
  ⟨rfl, rfl, (Instr.opcodeByte_eq_iff _ _).mpr rfl⟩
theorem xorq (rA rB : RegId) : Statement (.xorq rA rB) :=
  ⟨rfl, rfl, (Instr.opcodeByte_eq_iff _ _).mpr rfl⟩
theorem jmp (valC : Word64) : Statement (.jmp valC) :=
  ⟨rfl, rfl, (Instr.opcodeByte_eq_iff _ _).mpr rfl⟩
theorem jle (valC : Word64) : Statement (.jle valC) :=
  ⟨rfl, rfl, (Instr.opcodeByte_eq_iff _ _).mpr rfl⟩
theorem jl (valC : Word64) : Statement (.jl valC) :=
  ⟨rfl, rfl, (Instr.opcodeByte_eq_iff _ _).mpr rfl⟩
theorem je (valC : Word64) : Statement (.je valC) :=
  ⟨rfl, rfl, (Instr.opcodeByte_eq_iff _ _).mpr rfl⟩
theorem jne (valC : Word64) : Statement (.jne valC) :=
  ⟨rfl, rfl, (Instr.opcodeByte_eq_iff _ _).mpr rfl⟩
theorem jge (valC : Word64) : Statement (.jge valC) :=
  ⟨rfl, rfl, (Instr.opcodeByte_eq_iff _ _).mpr rfl⟩
theorem jg (valC : Word64) : Statement (.jg valC) :=
  ⟨rfl, rfl, (Instr.opcodeByte_eq_iff _ _).mpr rfl⟩
theorem call (valC : Word64) : Statement (.call valC) :=
  ⟨rfl, rfl, (Instr.opcodeByte_eq_iff _ _).mpr rfl⟩
theorem ret : Statement .ret :=
  ⟨rfl, rfl, (Instr.opcodeByte_eq_iff _ _).mpr rfl⟩
theorem pushq (rA : RegId) : Statement (.pushq rA) :=
  ⟨rfl, rfl, (Instr.opcodeByte_eq_iff _ _).mpr rfl⟩
theorem popq (rA : RegId) : Statement (.popq rA) :=
  ⟨rfl, rfl, (Instr.opcodeByte_eq_iff _ _).mpr rfl⟩

end Sys2Proof.Laws.Encoding
end

