-- ==== Sys2Proof/Laws/Step.lean ====
section
/-! SUPPORT. What a step can do, said once: the four ways it answers a next state, and the two ways it stops. -/

namespace Sys2Proof.Machine

/-- The walker's step always answers a next state, in one of three ways (R193, R195, R194). -/
theorem walkStep_cases (s : State) :
    (s.walk.seg.segEnd ≤ s.walk.pc ∧ walkStep s = .next s.endWalk) ∨
    (s.walk.pc < s.walk.seg.segEnd ∧ ∃ f, s.decodeHere = .failed f ∧
      walkStep s = .next (s.emitLabel.takeFault f)) ∨
    (s.walk.pc < s.walk.seg.segEnd ∧ ∃ i, s.decodeHere = .instr i ∧
      walkStep s = .next (s.emitLabel.retire i)) := by
  unfold walkStep State.atEnd
  by_cases h : s.walk.seg.segEnd ≤ s.walk.pc
  · exact .inl ⟨h, by rw [if_pos (by simpa using h)]⟩
  · rw [if_neg (by simpa using h)]
    cases hd : s.decodeHere with
    | failed f => exact .inr (.inl ⟨by omega, f, rfl, rfl⟩)
    | instr i =>
      refine .inr (.inr ⟨by omega, i, rfl, ?_⟩)
      show exec i s.emitLabel = _
      rw [exec_eq, State.complete_of_decodeHere (by rw [State.emitLabel_decodeHere, hd])]

/-- A step that answers a next state does one of four things. -/
theorem step_cases {s t : State} (h : step s = .next t) :
    (s.walk.phase = .walking ∧ s.walk.seg.segEnd ≤ s.walk.pc ∧ t = s.endWalk) ∨
    (s.walk.phase = .walking ∧ s.walk.pc < s.walk.seg.segEnd ∧
      ∃ f, s.decodeHere = .failed f ∧ t = s.emitLabel.takeFault f) ∨
    (s.walk.phase = .walking ∧ s.walk.pc < s.walk.seg.segEnd ∧
      ∃ i, s.decodeHere = .instr i ∧ t = s.emitLabel.retire i) ∨
    (s.walk.phase = .done ∧ ∃ g rest, s.pending = g :: rest ∧
      t = { s with walk := .start g, pending := rest, finished := s.finished ++ [s.walk] }) := by
  unfold step at h
  split at h
  next hp =>
    rcases walkStep_cases s with ⟨he, hw⟩ | ⟨hl, f, hf, hw⟩ | ⟨hl, i, hi, hw⟩ <;> rw [hw] at h <;>
      injection h with h <;> subst h
    · exact .inl ⟨hp, he, rfl⟩
    · exact .inr (.inl ⟨hp, hl, f, hf, rfl⟩)
    · exact .inr (.inr (.inl ⟨hp, hl, i, hi, rfl⟩))
  next hp =>
    split at h
    next u hu =>
      injection h with h
      subst h
      obtain ⟨g, rest, h1, h2⟩ := State.nextWalk_eq_some.mp hu
      exact .inr (.inr (.inr ⟨hp, g, rest, h1, h2⟩))
    · exact Host.Outcome.noConfusion rfl rfl rfl (heq_of_eq h)
  · exact Host.Outcome.noConfusion rfl rfl rfl (heq_of_eq h)

/-- A walking state always has a next state. -/
theorem step_walking (s : State) (h : s.walk.phase = .walking) : ∃ t, step s = .next t ∧ walkStep s = .next t := by
  unfold step
  rw [h]
  rcases walkStep_cases s with ⟨-, hw⟩ | ⟨-, f, -, hw⟩ | ⟨-, i, -, hw⟩ <;> exact ⟨_, hw, hw⟩

/-- No state is refused. -/
theorem step_ne_refused (s : State) (r : Refusal) : step s ≠ .refused r := by
  intro h
  cases hp : s.walk.phase with
  | walking =>
    obtain ⟨t, ht, -⟩ := step_walking s hp
    rw [ht] at h
    exact Host.Outcome.noConfusion rfl rfl rfl (heq_of_eq h)
  | done =>
    unfold step at h
    rw [hp] at h
    simp only at h
    split at h <;> exact Host.Outcome.noConfusion rfl rfl rfl (heq_of_eq h)
  | aborted k =>
    unfold step at h
    rw [hp] at h
    exact Host.Outcome.noConfusion rfl rfl rfl (heq_of_eq h)

/-- A run whose first step answers a next state goes on from it. -/
theorem run_succ_of_next (M : Host.Core) {k : Nat} {s t : M.State} (h : M.step s = .next t) :
    Host.Core.run M (k + 1) s = Host.Core.run M k t := by
  rw [Host.Core.run.eq_2, h]

/-- A run of at least one step that answers a next state took a first step. -/
theorem run_succ_eq_next (M : Host.Core) {k : Nat} {s u : M.State} (h : Host.Core.run M (k + 1) s = .next u) :
    ∃ t, M.step s = .next t ∧ Host.Core.run M k t = .next u := by
  rw [Host.Core.run.eq_2] at h
  revert h
  cases M.step s with
  | next t => exact fun h => ⟨t, rfl, h⟩
  | fault r => intro h; cases h
  | refused r => intro h; cases h

end Sys2Proof.Machine
end

