-- ==== Sys2Proof/Tests/Slice0.lean ====
section
/-! SUPPORT. Tests. Every expected result of a decode is a vector of spec/95_test_vectors.md, named as there, or is
worked out by hand from the rule that is named. The theorems test_witness_<Name> show that the hypotheses of the
obligation <Name> can be met, by inputs at the ends of their ranges. -/

namespace Sys2Proof.Tests

open Sys2Proof.Machine Sys2Proof.Claims

/-- The defaults, with the other order of the checks. -/
def boundsFirst : Params := { Params.default with immCheckOrder := .boundsFirst }

/-- The defaults, with the nibbles of `mrmovq` swapped. -/
def swapped : Params := { Params.default with mrmovNibbles := .swapped }

/-- The defaults, with `HALT_STOPS_WALK` true. -/
def haltStops : Params := { Params.default with haltStopsWalk := true }

/-- The decode of the bytes `bs` at `a`, in a space that holds nothing else. -/
def at_ (p : Params) (a : Nat) (bs : List Byte) : DecodeResult := decode p (contentsOf a bs) a

/-- The record `Ok(icode, ifun, rA, rB, valC, L, valP)` of spec/95_test_vectors.md. -/
def okIns (c : IClass) (f : BitVec 8) (rA rB : RegId) (valC : Option Word64) (len valP : Nat) : DecodeResult :=
  .ok { icode := c, ifun := f, rA := rA, rB := rB, valC := valC, len := len, valP := valP }

/-- A walk about to decode at `a`, over the bytes `bs` placed there. -/
def walkAt (p : Params) (entry : Addr16) (a : Nat) (bs : List Byte) : State :=
  { params := p
    mem := Memory.storeBytes [] a bs
    entryPoint := entry
    walk := .start { virtualStart := BitVec.ofNat 16 a, size := BitVec.ofNat 16 bs.length }
    pending := []
    finished := [] }

/-- What a step leaves of a state: `pc`, `Stat`, the phase, the output; none where it stops. -/
def after (o : Host.Outcome State Fault Refusal) : Option (Nat × Stat × Phase × List Event) :=
  match o with
  | .next t => some (t.walk.pc, t.walk.stat, t.walk.phase, t.walk.out)
  | _ => none

/-! ### Well-formedness: for each check an ill-formed term it refuses (R72) -/

theorem test_wf_moves_rA : [Instr.rrmovq .rnone (.reg 0), .cmovle .rnone (.reg 0), .cmovl .rnone (.reg 0),
    .cmove .rnone (.reg 0), .cmovne .rnone (.reg 0), .cmovge .rnone (.reg 0), .cmovg .rnone (.reg 0)].any
    (fun i => i.wellFormed .default) = false := by decide

theorem test_wf_moves_rB : [Instr.rrmovq (.reg 0) .rnone, .cmovle (.reg 0) .rnone, .cmovl (.reg 0) .rnone,
    .cmove (.reg 0) .rnone, .cmovne (.reg 0) .rnone, .cmovge (.reg 0) .rnone, .cmovg (.reg 0) .rnone].any
    (fun i => i.wellFormed .default) = false := by decide

theorem test_wf_arith_rA : [Instr.addq .rnone (.reg 0), .subq .rnone (.reg 0), .andq .rnone (.reg 0),
    .xorq .rnone (.reg 0)].any (fun i => i.wellFormed .default) = false := by decide

theorem test_wf_arith_rB : [Instr.addq (.reg 0) .rnone, .subq (.reg 0) .rnone, .andq (.reg 0) .rnone,
    .xorq (.reg 0) .rnone].any (fun i => i.wellFormed .default) = false := by decide

theorem test_wf_irmovq : (Instr.irmovq .rnone 0#64).wellFormed .default = false ∧
  (Instr.irmovq (.reg 14) 0#64).wellFormed .default = true := by decide

theorem test_wf_rmmovq : (Instr.rmmovq .rnone (.reg 0) 0#64).wellFormed .default = false ∧
  (Instr.rmmovq (.reg 14) .rnone 0#64).wellFormed .default = true := by decide

theorem test_wf_mrmovq : (Instr.mrmovq .rnone (.reg 0) 0#64).wellFormed .default = false ∧
  (Instr.mrmovq (.reg 0) .rnone 0#64).wellFormed .default = true ∧
  (Instr.mrmovq (.reg 0) .rnone 0#64).wellFormed swapped = false ∧
  (Instr.mrmovq .rnone (.reg 0) 0#64).wellFormed swapped = true := by decide

theorem test_wf_stack : (Instr.pushq .rnone).wellFormed .default = false ∧
  (Instr.popq .rnone).wellFormed .default = false ∧ (Instr.pushq (.reg 14)).wellFormed .default = true := by decide

theorem test_wf_params : ({ Params.default with memSize := 0 } : Params).wf = false ∧
  ({ Params.default with memSize := 65537 } : Params).wf = false ∧
  ({ Params.default with memSize := 65536 } : Params).wf = true := by decide

/-! ### Decoding: the vectors of spec/95_test_vectors.md -/

theorem test_decode_DV : at_ .default 0x1000 [] = failIA 0x1000 none ∧
  at_ .default 0xFFFF [] = failIA 0xFFFF none ∧
  at_ .default 0 [0xC0#8] = failII 0 (some 0xC0#8) ∧
  at_ .default 0xFFF [0xFF#8] = failII 0xFFF (some 0xFF#8) ∧
  at_ .default 0xFFE [0x20#8, 0xEE#8] = okIns .conditionalMove 0 (.reg 14) (.reg 14) none 2 0x1000 := by decide

theorem test_decode_W6 : at_ .default 0xFFF [0x27#8] = failIA 0x1000 (some 0x27#8) ∧
  at_ .default 0xFFF [0x50#8] = failIA 0x1000 (some 0x50#8) ∧
  at_ boundsFirst 0xFFF [0x77#8] = failIA 0x1000 (some 0x77#8) := by decide

theorem test_decode_HV : at_ .default 0xFFF [0x00#8] = okIns .halt 0 .rnone .rnone none 1 0x1000 ∧
  at_ .default 0 [0x01#8] = failII 0 (some 0x01#8) ∧
  at_ .default 0 [0x10#8] = okIns .nop 0 .rnone .rnone none 1 1 ∧
  at_ .default 0 [0x1F#8] = failII 0 (some 0x1F#8) ∧
  at_ .default 0xFFF [0x90#8] = okIns .ret 0 .rnone .rnone none 1 0x1000 ∧
  at_ .default 0 [0x91#8] = failII 0 (some 0x91#8) := by decide

theorem test_decode_MV1_8 :
  at_ .default 0 [0x20#8, 0x12#8] = okIns .conditionalMove 0 (.reg 1) (.reg 2) none 2 2 ∧
  at_ .default 0 [0x26#8, 0xEE#8] = okIns .conditionalMove 6 (.reg 14) (.reg 14) none 2 2 ∧
  at_ .default 0 [0x27#8, 0x12#8] = failII 0 (some 0x27#8) ∧
  at_ .default 0 [0x20#8, 0xF1#8] = failII 0 (some 0x20#8) ∧
  at_ .default 0 [0x20#8, 0x1F#8] = failII 0 (some 0x20#8) ∧
  at_ .default 0xFFF [0x27#8] = failIA 0x1000 (some 0x27#8) := by decide

theorem test_decode_MV9_11 : at_ .default 0 [0x30#8, 0x11#8, 0x05#8] = failII 0 (some 0x30#8) ∧
  at_ .default 0 [0x30#8, 0xFF#8] = failII 0 (some 0x30#8) ∧
  at_ .default 0 [0x31#8, 0xF1#8] = failII 0 (some 0x31#8) := by decide

theorem test_decode_MV12_16 :
  at_ .default 0xFF6 [0x30#8, 0xF1#8, 0x01#8]
    = okIns .immediateToRegister 0 .rnone (.reg 1) (some 1#64) 10 0x1000 ∧
  at_ .default 0xFF7 [0x30#8, 0xF1#8, 0x01#8] = failIA 0x1000 (some 0x30#8) ∧
  at_ .default 0xFFE [0x31#8, 0xF1#8] = failII 0xFFE (some 0x31#8) ∧
  at_ boundsFirst 0xFFE [0x31#8, 0xF1#8] = failIA 0x1000 (some 0x31#8) ∧
  at_ .default 0xFFF [0x30#8] = failIA 0x1000 (some 0x30#8) := by decide

theorem test_decode_MV17_18 :
  at_ .default 0 [0x30#8, 0xF2#8, 0xFF#8, 0xFF#8, 0xFF#8, 0xFF#8, 0xFF#8, 0xFF#8, 0xFF#8, 0xFF#8]
    = okIns .immediateToRegister 0 .rnone (.reg 2) (some 0xffffffffffffffff#64) 10 0xA ∧
  at_ .default 0 [0x30#8, 0xF2#8, 0x01#8, 0x02#8, 0x03#8, 0x04#8, 0x05#8, 0x06#8, 0x07#8, 0x08#8]
    = okIns .immediateToRegister 0 .rnone (.reg 2) (some 0x0807060504030201#64) 10 0xA := by decide

theorem test_decode_MV19_24 :
  at_ .default 0 [0x40#8, 0x15#8, 0x10#8] = okIns .registerToMemory 0 (.reg 1) (.reg 5) (some 0x10#64) 10 0xA ∧
  at_ .default 0 [0x40#8, 0x1F#8, 0x10#8] = okIns .registerToMemory 0 (.reg 1) .rnone (some 0x10#64) 10 0xA ∧
  at_ .default 0 [0x40#8, 0xF1#8, 0x10#8] = failII 0 (some 0x40#8) ∧
  at_ .default 0 [0x41#8, 0x15#8, 0x10#8] = failII 0 (some 0x41#8) ∧
  at_ .default 0xFFA [0x40#8, 0xF1#8] = failII 0xFFA (some 0x40#8) ∧
  at_ boundsFirst 0xFFA [0x40#8, 0xF1#8] = failIA 0x1000 (some 0x40#8) := by decide

theorem test_decode_MV25_30 :
  at_ .default 0x200 [0x50#8, 0x21#8, 0x08#8]
    = okIns .memoryToRegister 0 (.reg 2) (.reg 1) (some 8#64) 10 0x20A ∧
  at_ .default 0 [0x50#8, 0x2F#8] = okIns .memoryToRegister 0 (.reg 2) .rnone (some 0#64) 10 0xA ∧
  at_ swapped 0 [0x50#8, 0x2F#8] = failII 0 (some 0x50#8) ∧
  at_ .default 0 [0x50#8, 0xF2#8] = failII 0 (some 0x50#8) ∧
  at_ swapped 0 [0x50#8, 0xF2#8] = okIns .memoryToRegister 0 .rnone (.reg 2) (some 0#64) 10 0xA ∧
  at_ .default 0 [0x50#8, 0xFF#8] = failII 0 (some 0x50#8) ∧
  at_ swapped 0 [0x50#8, 0xFF#8] = failII 0 (some 0x50#8) := by decide

theorem test_decode_AV :
  at_ .default 0 [0x60#8, 0x01#8] = okIns .arithmeticOp 0 (.reg 0) (.reg 1) none 2 2 ∧
  at_ .default 0 [0x61#8, 0x23#8] = okIns .arithmeticOp 1 (.reg 2) (.reg 3) none 2 2 ∧
  at_ .default 0 [0x62#8, 0x45#8] = okIns .arithmeticOp 2 (.reg 4) (.reg 5) none 2 2 ∧
  at_ .default 0 [0x63#8, 0xEE#8] = okIns .arithmeticOp 3 (.reg 14) (.reg 14) none 2 2 ∧
  at_ .default 0 [0x64#8, 0x12#8] = failII 0 (some 0x64#8) ∧
  at_ .default 0 [0x60#8, 0xF0#8] = failII 0 (some 0x60#8) ∧
  at_ .default 0 [0x60#8, 0x0F#8] = failII 0 (some 0x60#8) ∧
  at_ .default 0xFFF [0x64#8] = failIA 0x1000 (some 0x64#8) := by decide

theorem test_decode_CV1_7 :
  at_ .default 0 [0x76#8, 0x08#8] = okIns .jump 6 .rnone .rnone (some 8#64) 9 9 ∧
  at_ .default 0 [0x77#8] = failII 0 (some 0x77#8) ∧
  at_ .default 0xFF7 [0x70#8] = okIns .jump 0 .rnone .rnone (some 0#64) 9 0x1000 ∧
  at_ .default 0xFF8 [0x70#8] = failIA 0x1000 (some 0x70#8) ∧
  at_ .default 0xFF8 [0x77#8] = failII 0xFF8 (some 0x77#8) ∧
  at_ boundsFirst 0xFF8 [0x77#8] = failIA 0x1000 (some 0x77#8) ∧
  at_ .default 0xFFF [0x77#8] = failIA 0x1000 (some 0x77#8) := by decide

theorem test_decode_CV8_12 :
  at_ .default 0 [0x72#8, 0xFF#8, 0xFF#8, 0xFF#8, 0xFF#8, 0xFF#8, 0xFF#8, 0xFF#8, 0xFF#8]
    = okIns .jump 2 .rnone .rnone (some 0xffffffffffffffff#64) 9 9 ∧
  at_ .default 0 [0x70#8, 0#8, 0#8, 0#8, 0#8, 0#8, 0#8, 0x01#8]
    = okIns .jump 0 .rnone .rnone (some 0x0001000000000000#64) 9 9 ∧
  at_ .default 0x100 [0x80#8, 0x0B#8, 0x01#8] = okIns .call 0 .rnone .rnone (some 0x10B#64) 9 0x109 ∧
  at_ .default 0 [0x81#8] = failII 0 (some 0x81#8) ∧
  at_ .default 0xFFF [0x80#8] = failIA 0x1000 (some 0x80#8) := by decide

theorem test_decode_SV :
  at_ .default 0 [0xA0#8, 0x5F#8] = okIns .push 0 (.reg 5) .rnone none 2 2 ∧
  at_ .default 0 [0xA0#8, 0xFF#8] = failII 0 (some 0xA0#8) ∧
  at_ .default 0 [0xA0#8, 0x00#8] = failII 0 (some 0xA0#8) ∧
  at_ .default 0 [0xA1#8, 0x5F#8] = failII 0 (some 0xA1#8) ∧
  at_ .default 0 [0xB0#8, 0x4F#8] = okIns .pop 0 (.reg 4) .rnone none 2 2 ∧
  at_ .default 0 [0xB0#8, 0xF5#8] = failII 0 (some 0xB0#8) ∧
  at_ .default 0xFFF [0xB0#8] = failIA 0x1000 (some 0xB0#8) := by decide

/-! ### Every constructor, from a word written out from R65 and R78, numbered as spec/opcode_table.json
numbers it (the first byte in bits 7..0) -/

theorem test_word_one_byte : decodeTableWord 8 0x00 = some .halt ∧ decodeTableWord 8 0x10 = some .nop ∧
  decodeTableWord 8 0x90 = some .ret := by decide

theorem test_word_moves : decodeTableWord 16 0x1220 = some (.rrmovq (.reg 1) (.reg 2)) ∧
  decodeTableWord 16 0x1221 = some (.cmovle (.reg 1) (.reg 2)) ∧
  decodeTableWord 16 0x1222 = some (.cmovl (.reg 1) (.reg 2)) ∧
  decodeTableWord 16 0x1223 = some (.cmove (.reg 1) (.reg 2)) ∧
  decodeTableWord 16 0x1224 = some (.cmovne (.reg 1) (.reg 2)) ∧
  decodeTableWord 16 0x1225 = some (.cmovge (.reg 1) (.reg 2)) ∧
  decodeTableWord 16 0x1226 = some (.cmovg (.reg 1) (.reg 2)) := by decide

theorem test_word_immediates :
  decodeTableWord 80 0x0807060504030201F230 = some (.irmovq (.reg 2) 0x0807060504030201#64) ∧
  decodeTableWord 80 0x08070605040302011540 = some (.rmmovq (.reg 1) (.reg 5) 0x0807060504030201#64) ∧
  decodeTableWord 80 0x08070605040302012150 = some (.mrmovq (.reg 2) (.reg 1) 0x0807060504030201#64) := by decide

theorem test_word_arith : decodeTableWord 16 0x1260 = some (.addq (.reg 1) (.reg 2)) ∧
  decodeTableWord 16 0x1261 = some (.subq (.reg 1) (.reg 2)) ∧
  decodeTableWord 16 0x1262 = some (.andq (.reg 1) (.reg 2)) ∧
  decodeTableWord 16 0x1263 = some (.xorq (.reg 1) (.reg 2)) := by decide

theorem test_word_jumps : decodeTableWord 72 0x010070 = some (.jmp 0x100#64) ∧
  decodeTableWord 72 0x010071 = some (.jle 0x100#64) ∧ decodeTableWord 72 0x010072 = some (.jl 0x100#64) ∧
  decodeTableWord 72 0x010073 = some (.je 0x100#64) ∧ decodeTableWord 72 0x010074 = some (.jne 0x100#64) ∧
  decodeTableWord 72 0x010075 = some (.jge 0x100#64) ∧ decodeTableWord 72 0x010076 = some (.jg 0x100#64) ∧
  decodeTableWord 72 0x010080 = some (.call 0x100#64) := by decide

theorem test_word_stack : decodeTableWord 16 0x5FA0 = some (.pushq (.reg 5)) ∧
  decodeTableWord 16 0x4FB0 = some (.popq (.reg 4)) := by decide

/-- Bits above `nbits` are 0: the register byte is 00, which `irmovq`, `pushq` and `popq` do not admit (MV9, SV4). -/
theorem test_word_short : decodeTableWord 8 0x1220 = some (.rrmovq (.reg 0) (.reg 0)) ∧
  decodeTableWord 8 0x30 = none ∧ decodeTableWord 8 0xA0 = none ∧ decodeTableWord 8 0xB0 = none ∧
  decodeTableWord 8 0xC0 = none := by decide

theorem test_encode : encode (.irmovq (.reg 1) 5#64)
    = [0x30#8, 0xF1#8, 0x05#8, 0x00#8, 0x00#8, 0x00#8, 0x00#8, 0x00#8, 0x00#8, 0x00#8] ∧
  encode (.jle 0x0807060504030201#64)
    = [0x71#8, 0x01#8, 0x02#8, 0x03#8, 0x04#8, 0x05#8, 0x06#8, 0x07#8, 0x08#8] ∧
  encode (.popq (.reg 4)) = [0xB0#8, 0x4F#8] ∧ encode .ret = [0x90#8] := by decide

theorem test_ports : (at_ .default 0xFF6 [0x30#8, 0xF1#8, 0x01#8]).ports = .ok1
    { icode := some 3#4, ifun := 0#8, rA := 0xF#4, rB := 1#4, valCValid := 1#1, valC := some 1#64, len := 10#4,
      valP := 0x1000 } ∧
  (at_ .default 0xFFF [0x20#8]).ports = .ok0
    { faultKind := 0#1, faultAddr := 0x1000, rawValid := 1#1, rawByte := some 0x20#8 } ∧
  (at_ .default 0x1000 []).ports = .ok0
    { faultKind := 0#1, faultAddr := 0x1000, rawValid := 0#1, rawByte := none } := by decide

/-! ### Memory -/

theorem test_store_canonical : Memory.storeBytes [] 5 [1#8, 0#8, 2#8] = [(5, 1#8), (7, 2#8)] ∧
  Memory.store [(5, 1#8), (7, 2#8)] 5 0#8 = [(7, 2#8)] ∧
  Memory.store [(5, 1#8), (7, 2#8)] 6 3#8 = [(5, 1#8), (6, 3#8), (7, 2#8)] := by decide

theorem test_wf_refuses : Memory.wf [(5, 0#8)] = false ∧ Memory.wf [(7, 1#8), (5, 1#8)] = false ∧
  Memory.wf [(5, 1#8), (5, 1#8)] = false := by decide

/-! ### One step -/

/-- P2 of spec/95_test_vectors.md, its first row: the call is not followed. -/
theorem test_step_call : after (step (walkAt .default 0x10B#16 0x100 [0x80#8, 0x0B#8, 0x01#8, 0#8, 0#8, 0#8, 0#8, 0#8, 0#8])) =
    some (0x109, .running, .walking, [.line 0x100 [0x80#8, 0x0B#8, 0x01#8, 0#8, 0#8, 0#8, 0#8, 0#8, 0#8]
      (ins9 .call 0#8 0x10B#64 0x100)]) := by decide

/-- P2, its fourth row, with the entry label. -/
theorem test_step_push : after (step (walkAt .default 0x10B#16 0x10B [0xA0#8, 0x5F#8])) =
    some (0x10D, .running, .walking, [.label 0x10B, .line 0x10B [0xA0#8, 0x5F#8]
      (ins2 .push 0#8 (.reg 5) .rnone 0x10B)]) := by decide

/-- P7: the halt, under both values of `HALT_STOPS_WALK`. -/
theorem test_step_halt :
  after (step (walkAt .default 0x401#16 0x400 [0x00#8, 0xF0#8])) =
    some (0x401, .halted, .walking, [.line 0x400 [0x00#8] (ins1 .halt 0x400)]) ∧
  after (step (walkAt haltStops 0x401#16 0x400 [0x00#8, 0xF0#8])) =
    some (0x401, .halted, .done, [.line 0x400 [0x00#8] (ins1 .halt 0x400)]) := by decide

/-- P3: the abort at 0x214. -/
theorem test_step_illegal : after (step (walkAt .default 0#16 0x214 [0x64#8, 0x12#8])) =
    some (0x214, .invalidInstruction, .aborted .invalidInstruction,
      [.diagnostic .invalidInstruction 0x214 0x214 (some 0x64#8)]) := by decide

/-- P4: the abort at 0xFFC. -/
theorem test_step_truncated : after (step (walkAt .default 0#16 0xFFC [0x70#8, 0#8, 0#8, 0#8])) =
    some (0xFFC, .invalidAddress, .aborted .invalidAddress,
      [.diagnostic .invalidAddress 0xFFC 0x1000 (some 0x70#8)]) := by decide

/-- WV1: the end test precedes the label. -/
theorem test_step_empty_segment : after (step (walkAt .default 0x20#16 0x20 [])) =
    some (0x20, .running, .done, []) := by decide

/-- WV2: a segment outside the space. -/
theorem test_step_outside : after (step (walkAt .default 0#16 0x1000 [0#8, 0#8, 0#8, 0#8])) =
    some (0x1000, .invalidAddress, .aborted .invalidAddress,
      [.diagnostic .invalidAddress 0x1000 0x1000 none]) := by decide

/-- A word placed by `withFetchWord` runs as the first instruction after reset. The entry point of the reset state
is 0, so its label precedes the line. -/
theorem test_step_fetch_word : after (step (State.reset.withFetchWord 16 0x1261)) =
    some (2, .running, .walking, [.label 0, .line 0 [0x61#8, 0x12#8] (ins2 .arithmeticOp 1#8 (.reg 1) (.reg 2) 0)]) := by
  decide

theorem test_step_reset : after (step State.reset) = some (0, .running, .done, []) := by decide

/-- Two code segments, as P6 loads them. -/
def image : List LoadSegment :=
  [⟨.code, ⟨0#16, 1#16⟩, [0x00#8]⟩, ⟨.data, ⟨0x20#16, 2#16⟩, [0x00#8, 0x07#8]⟩, ⟨.code, ⟨0x10#16, 1#16⟩, [0xC0#8]⟩]

/-- The state that P6 starts in. -/
def booted : State :=
  { params := .default
    mem := [(0x10, 0xC0#8), (0x21, 0x07#8)]
    entryPoint := 0x10#16
    walk := .start ⟨0#16, 1#16⟩
    pending := [⟨0x10#16, 1#16⟩]
    finished := [] }

theorem test_boot : boot .default image 0x10#16 = .next booted := by rfl

/-- The last clause is log entry 13's choice: an empty segment above the space. -/
theorem test_boot_refuses :
  boot { Params.default with memSize := 0 } [] 0#16 = .refused .parameterOutsideRange ∧
  boot .default [⟨.code, ⟨0#16, 2#16⟩, [0x00#8]⟩] 0#16 = .refused .segmentSizeMismatch ∧
  boot .default [⟨.code, ⟨0xFFF#16, 2#16⟩, [0x00#8, 0x00#8]⟩] 0#16 = .refused .segmentOutsideSpace ∧
  boot .default [⟨.code, ⟨0#16, 2#16⟩, [0x00#8, 0x00#8]⟩, ⟨.data, ⟨1#16, 1#16⟩, [0x00#8]⟩] 0#16
    = .refused .overlappingSegments ∧
  boot .default [⟨.code, ⟨0x1001#16, 0#16⟩, []⟩] 0#16 = .refused .segmentOutsideSpace := ⟨rfl, rfl, rfl, rfl, rfl⟩

/-- The templates of R93, one line each of R90 to R92. -/
theorem test_render : (Instr.cmovg (.reg 1) (.reg 14)).render = "cmovg %rcx, %r14" ∧
  (Instr.mrmovq .rnone (.reg 2) 0xff#64).render = "mrmovq 0xff(%rdx), " ∧ Instr.ret.render = "ret" ∧
  (Instr.jge 0xffffffffffffffff#64).render = "jge 0xffffffffffffffff" := by decide

/-! ### Witnesses: the hypotheses of each obligation can be met -/

theorem test_witness_DecodeOfEncode : (Instr.irmovq (.reg 14) 5#64).wellFormed .default = true ∧
  0xFF6 + (encode (.irmovq (.reg 14) 5#64)).length ≤ Params.default.memSize ∧
  bytesAt (contentsOf 0xFF6 [0x30#8, 0xFE#8, 0x05#8]) 0xFF6 (encode (.irmovq (.reg 14) 5#64)).length
    = encode (.irmovq (.reg 14) 5#64) := by decide

theorem test_witness_EncodeOfDecode :
  decodeInstr .default (contentsOf 0xFFE [0x26#8, 0xEE#8]) 0xFFE = .instr (.cmovg (.reg 14) (.reg 14)) := by decide

/-- Every clause: outside, an Invalid class, no second byte, an invalid field before and after the bounds of a
truncated immediate, a truncated immediate in both orders, success. -/
theorem test_witness_FirstFailureInOrder :
  Params.default.memSize ≤ 0x1000 ∧
  (0xFFF < Params.default.memSize ∧ 0xC ≤ (hiNibble (contentsOf 0xFFF [0xC0#8] 0xFFF)).toNat) ∧
  (∃ e, Params.default.dispatch (IClass.ofNibble (hiNibble 0x27#8)) = some e ∧ 2 ≤ e.fmt.length ∧
    Params.default.memSize ≤ 0xFFF + 1) ∧
  (∃ e, Params.default.dispatch (IClass.ofNibble (hiNibble 0x31#8)) = some e ∧ 0xFFE + 1 < Params.default.memSize ∧
    e.valid (loNibble 0x31#8) (e.rA 0xF1#8) (e.rB 0xF1#8) = false) ∧
  (∃ e, Params.default.dispatch (IClass.ofNibble (hiNibble 0x30#8)) = some e ∧ 0xFF7 + 1 < Params.default.memSize ∧
    e.valid (loNibble 0x30#8) (e.rA 0xF1#8) (e.rB 0xF1#8) = true ∧ e.fmt.immOff.isSome = true ∧
    Params.default.memSize < 0xFF7 + e.fmt.length ∧ 0xFF6 + e.fmt.length ≤ Params.default.memSize) ∧
  (∃ e, boundsFirst.dispatch (IClass.ofNibble (hiNibble 0x31#8)) = some e ∧ e.fmt.immOff.isSome = true ∧
    boundsFirst.memSize < 0xFFE + e.fmt.length ∧ 0xFF6 + e.fmt.length ≤ boundsFirst.memSize ∧
    e.valid (loNibble 0x31#8) (e.rA 0xF1#8) (e.rB 0xF1#8) = false) :=
  ⟨by decide, by decide, ⟨_, rfl, by decide⟩, ⟨_, rfl, by decide⟩, ⟨_, rfl, by decide⟩, ⟨_, rfl, by decide⟩⟩

theorem test_witness_InvalidClassFailsOnItsByte : 0xFFF < Params.default.memSize ∧
  0xC ≤ (hiNibble (contentsOf 0xFFF [0xC0#8] 0xFFF)).toNat ∧
  contentsOf 0 [0xC0#8, 0xFF#8] 0 = contentsOf 0 [0xC0#8, 0x00#8] 0 := by decide

theorem test_witness_SecondByteOutOfRange : 0xFFF + 1 = Params.default.memSize ∧
  ∀ b ∈ [0x20#8, 0x30#8, 0x4F#8, 0x50#8, 0x64#8, 0x77#8, 0x80#8, 0xA0#8, 0xBF#8],
    (hiNibble (contentsOf 0xFFF [b] 0xFFF)).toNat ∈ [2, 3, 4, 5, 6, 7, 8, 10, 11] := by decide

theorem test_witness_FaultAddresses :
  decode .default (contentsOf 0 []) 0x1000 = .fail ⟨.invalidAddress, 0x1000, none⟩ ∧
  decode .default (contentsOf 0xFFF [0x20#8]) 0xFFF = .fail ⟨.invalidAddress, 0x1000, some 0x20#8⟩ ∧
  decode .default (contentsOf 0xFFF [0x01#8]) 0xFFF = .fail ⟨.invalidInstruction, 0xFFF, some 0x01#8⟩ := by decide

/-- One success of each length, at the end of the space: for SuccessEndsInsideSpace, RecordFields and
LengthByClass. -/
theorem test_witness_success_of_each_length :
  decode .default (contentsOf 0xFFF [0x90#8]) 0xFFF = .ok (ins1 .ret 0xFFF) ∧
  decode .default (contentsOf 0xFFE [0xA0#8, 0xEF#8]) 0xFFE = .ok (ins2 .push 0#8 (.reg 14) .rnone 0xFFE) ∧
  decode .default (contentsOf 0xFF7 [0x76#8]) 0xFF7 = .ok (ins9 .jump 6#8 0#64 0xFF7) ∧
  decode .default (contentsOf 0xFF6 [0x40#8, 0x1F#8]) 0xFF6
    = .ok (ins10 .registerToMemory (.reg 1) .rnone 0#64 0xFF6) := by decide

theorem test_witness_LegalFirstBytes : 10 ≤ ({ Params.default with memSize := 10 } : Params).memSize ∧
  0xB0#8 ∈ legalFirstBytes ∧ 0xB1#8 ∉ legalFirstBytes := by decide

theorem test_witness_SubfunctionTables :
  decodeInstr .default (contentsOf 0 [0x26#8, 0xE0#8]) 0 = .instr (.cmovg (.reg 14) (.reg 0)) ∧
  (hiNibble (contentsOf 0 [0x26#8, 0xE0#8] 0)).toNat = 2 ∧
  decodeInstr .default (contentsOf 0 [0x63#8, 0x0E#8]) 0 = .instr (.xorq (.reg 0) (.reg 14)) ∧
  (hiNibble (contentsOf 0 [0x63#8, 0x0E#8] 0)).toNat = 6 ∧
  decodeInstr .default (contentsOf 0 [0x76#8]) 0 = .instr (.jg 0#64) ∧
  (hiNibble (contentsOf 0 [0x76#8] 0)).toNat = 7 := by decide

theorem test_witness_CheckOrdersDisagreeOnlyWhenBothFail :
  decode { Params.default with immCheckOrder := .fieldsFirst } (contentsOf 0xFFE [0x31#8, 0xF1#8]) 0xFFE ≠
    decode { Params.default with immCheckOrder := .boundsFirst } (contentsOf 0xFFE [0x31#8, 0xF1#8]) 0xFFE := by
  decide

theorem test_witness_DecodeReadsOnlyItsBytes :
  (∀ x, 0 ≤ x → x ≤ 0 + 9 → x < Params.default.memSize →
    contentsOf 0 [0x10#8, 0#8, 0#8, 0#8, 0#8, 0#8, 0#8, 0#8, 0#8, 0#8, 0xFF#8] x = contentsOf 0 [0x10#8] x) ∧
  decode .default (contentsOf 0 [0x10#8]) 0 = .ok (ins1 .nop 0) ∧
  (∀ x, 0 ≤ x → x < 0 + (ins1 .nop 0).len → contentsOf 0 [0x10#8, 0xFF#8] x = contentsOf 0 [0x10#8] x) := by
  refine ⟨fun x _ h _ => ?_, by decide, fun x _ h => ?_⟩
  · exact (by decide : ∀ x, x < 10 →
      contentsOf 0 [0x10#8, 0#8, 0#8, 0#8, 0#8, 0#8, 0#8, 0#8, 0#8, 0#8, 0xFF#8] x = contentsOf 0 [0x10#8] x) x
      (by omega)
  · exact (by decide : ∀ x, x < 1 → contentsOf 0 [0x10#8, 0xFF#8] x = contentsOf 0 [0x10#8] x) x h

/-- An opcode byte of each class: for OneByteDecode, RegisterPairDecode, IrmovqDecode, RmmovqDecode, MrmovqDecode,
TargetDecode and StackDecode. Each branch of their right sides is one of the vectors above. -/
theorem test_witness_class_decodes : [0x00#8, 0x1F#8, 0x90#8, 0x27#8, 0x64#8, 0x30#8, 0x4F#8, 0x50#8, 0x77#8, 0x81#8,
    0xA0#8, 0xBF#8].map (fun b => (hiNibble (contentsOf 0 [b] 0)).toNat) = [0, 1, 9, 2, 6, 3, 4, 5, 7, 8, 0xA, 0xB] := by
  decide

/-- Each length at the last address it fits: the completion statements' one hypothesis, and the two of
`mrmovq`. -/
theorem test_witness_completions :
  (walkAt .default 0#16 0xFFF [0x00#8]).walk.pc + 1 ≤ Params.default.memSize ∧
  (walkAt .default 0#16 0xFFE [0x20#8, 0x12#8]).walk.pc + 2 ≤ Params.default.memSize ∧
  (walkAt .default 0#16 0xFF7 [0x70#8]).walk.pc + 9 ≤ Params.default.memSize ∧
  (walkAt .default 0#16 0xFF6 [0x30#8, 0xF1#8]).walk.pc + 10 ≤ Params.default.memSize ∧
  (walkAt .default 0#16 0xFF6 [0x50#8]).params.mrmovNibbles = .sameAsRmmov ∧
  (walkAt swapped 0#16 0xFF6 [0x50#8]).walk.pc + 10 ≤ swapped.memSize ∧
  (walkAt swapped 0#16 0xFF6 [0x50#8]).params.mrmovNibbles = .swapped := by decide

theorem test_witness_InstructionFrame :
  (∃ t, exec (.rmmovq (.reg 1) .rnone 0x10#64) (walkAt .default 0#16 0xFF6 [0x40#8, 0x1F#8, 0x10#8]) = .next t ∧
    t.walk.pc = 0x1000) ∧
  ∃ t, exec (.rmmovq .rnone .rnone 0x10#64) (walkAt .default 0#16 0xFF6 [0x40#8, 0xFF#8, 0x10#8]) = .next t ∧
    t.walk.phase = .aborted .invalidInstruction := ⟨⟨_, rfl, by decide⟩, ⟨_, rfl, by decide⟩⟩

theorem test_witness_TruncatedInstructionsAbort :
  (Instr.jmp 0#64).wellFormed .default = true ∧
  Params.default.memSize < (walkAt .default 0#16 0xFF8 [0x70#8]).walk.pc + (Instr.jmp 0#64).length ∧
  ¬ Params.default.memSize ≤ (walkAt .default 0#16 0xFF8 [0x70#8]).walk.pc ∧
  Params.default.memSize ≤ (walkAt .default 0#16 0x1000 []).walk.pc := by decide

/-- An ill-formed instruction for each branch: outside, no second byte, truncated with `BoundsFirst`, and the same
with `FieldsFirst`, and one that fits exactly. The kinds are those of R112, and of MV23, MV24 and SV3. -/
theorem test_witness_IllegalOperandsAbort : (Instr.pushq .rnone).wellFormed .default = false ∧
  (Instr.rmmovq .rnone (.reg 1) 0#64).wellFormed boundsFirst = false ∧
  after (exec (.pushq .rnone) (walkAt .default 0#16 0x1000 [])) =
    some (0x1000, .invalidAddress, .aborted .invalidAddress,
      [.diagnostic .invalidAddress 0x1000 0x1000 none]) ∧
  after (exec (.pushq .rnone) (walkAt .default 0#16 0xFFF [0xA0#8])) =
    some (0xFFF, .invalidAddress, .aborted .invalidAddress,
      [.diagnostic .invalidAddress 0xFFF 0x1000 (some 0xA0#8)]) := by decide

/-- The other three branches. -/
theorem test_witness_IllegalOperandsAbort_second :
  after (exec (.rmmovq .rnone (.reg 1) 0#64) (walkAt boundsFirst 0#16 0xFF7 [0x40#8, 0xF1#8])) =
    some (0xFF7, .invalidAddress, .aborted .invalidAddress,
      [.diagnostic .invalidAddress 0xFF7 0x1000 (some 0x40#8)]) ∧
  after (exec (.rmmovq .rnone (.reg 1) 0#64) (walkAt .default 0#16 0xFF7 [0x40#8, 0xF1#8])) =
    some (0xFF7, .invalidInstruction, .aborted .invalidInstruction,
      [.diagnostic .invalidInstruction 0xFF7 0xFF7 (some 0x40#8)]) ∧
  after (exec (.pushq .rnone) (walkAt .default 0#16 0xFFE [0xA0#8, 0xFF#8])) =
    some (0xFFE, .invalidInstruction, .aborted .invalidInstruction,
      [.diagnostic .invalidInstruction 0xFFE 0xFFE (some 0xA0#8)]) := ⟨by decide, by decide, by decide⟩

theorem test_witness_StepRunsDecodedInstruction :
  (walkAt .default 0xFFE#16 0xFFE [0x61#8, 0x23#8]).walk.phase = .walking ∧
  (walkAt .default 0xFFE#16 0xFFE [0x61#8, 0x23#8]).walk.pc
    < (walkAt .default 0xFFE#16 0xFFE [0x61#8, 0x23#8]).walk.seg.segEnd ∧
  decodeInstr .default (walkAt .default 0xFFE#16 0xFFE [0x61#8, 0x23#8]).mem.byteAt 0xFFE
    = .instr (.subq (.reg 2) (.reg 3)) := by decide

/-- A halt that ends the walk, one that does not, and a decode of another class: for StepListsDecodedInstruction and
OnlyHaltMayEndAWalkEarly. -/
theorem test_witness_step_of_a_decode :
  decode haltStops (walkAt haltStops 0#16 0xFFF [0x00#8]).mem.byteAt 0xFFF = .ok (ins1 .halt 0xFFF) ∧
  decode .default (walkAt .default 0#16 0xFFF [0x00#8]).mem.byteAt 0xFFF = .ok (ins1 .halt 0xFFF) ∧
  decode haltStops (walkAt haltStops 0#16 0xFFF [0x10#8]).mem.byteAt 0xFFF = .ok (ins1 .nop 0xFFF) ∧
  (∃ t, step (walkAt haltStops 0#16 0xFFF [0x00#8]) = .next t ∧ t.walk.phase = .done) ∧
  (∃ t, step (walkAt .default 0#16 0xFFF [0x00#8]) = .next t ∧ t.walk.phase = .walking) ∧
  ∃ t, step (walkAt haltStops 0#16 0xFFF [0x10#8]) = .next t ∧ t.walk.phase = .walking :=
  ⟨by decide, by decide, by decide, ⟨_, rfl, by decide⟩, ⟨_, rfl, by decide⟩, ⟨_, rfl, by decide⟩⟩

theorem test_witness_StepTakesDecodeFailure :
  decode .default (walkAt .default 0xFFF#16 0xFFF [0x20#8]).mem.byteAt 0xFFF
    = .fail ⟨.invalidAddress, 0x1000, some 0x20#8⟩ ∧
  decode .default (walkAt .default 0xFFF#16 0xFFF [0xC0#8]).mem.byteAt 0xFFF
    = .fail ⟨.invalidInstruction, 0xFFF, some 0xC0#8⟩ ∧
  (walkAt .default 0xFFF#16 0xFFF [0x20#8]).walk.pc
    < (walkAt .default 0xFFF#16 0xFFF [0x20#8]).walk.seg.segEnd := by decide

theorem test_witness_WalkEndsAtSegmentEnd : (walkAt .default 0#16 0x20 []).walk.phase = .walking ∧
  (walkAt .default 0#16 0x20 []).walk.seg.virtualStart.toNat + (walkAt .default 0#16 0x20 []).walk.seg.size.toNat
    ≤ (walkAt .default 0#16 0x20 []).walk.pc := by decide

/-- The first walk of P6, ended, with the second still to come. -/
def firstWalkDone : State :=
  { booted with walk := { booted.walk with
      pc := 1, stat := .halted, phase := .done, out := [.line 0 [0x00#8] (ins1 .halt 0)] } }

theorem test_witness_NextWalkStartsFresh : firstWalkDone.walk.phase = .done ∧
  firstWalkDone.pending = ⟨0x10#16, 1#16⟩ :: [] := by decide

theorem test_witness_LabelExactlyAtEntryPoint :
  (∃ t, step (walkAt .default 0xFFF#16 0xFFF [0x10#8]) = .next t ∧
    t.walk.out = [.label 0xFFF, .line 0xFFF [0x10#8] (ins1 .nop 0xFFF)]) ∧
  (∃ t, step (walkAt .default 0x20#16 0x20 []) = .next t ∧ t.walk.out = []) ∧
  ∃ t, step (walkAt .default 0#16 0xFFF [0x10#8]) = .next t ∧
    t.walk.out = [.line 0xFFF [0x10#8] (ins1 .nop 0xFFF)] :=
  ⟨⟨_, rfl, by decide⟩, ⟨_, rfl, by decide⟩, ⟨_, rfl, by decide⟩⟩

theorem test_witness_SpaceIsNeverWritten : ∃ t, step booted = .next t ∧ t.mem = [(0x10, 0xC0#8), (0x21, 0x07#8)] :=
  ⟨_, rfl, by decide⟩

/-- A halt, a fault and a walk's start: the three ways the status changes. -/
theorem test_witness_StatusChangesOnlyByHaltFaultAndStart :
  (∃ t, step booted = .next t ∧ t.walk.stat = .halted ∧ booted.walk.stat = .running) ∧
  (∃ t, step (walkAt .default 0#16 0xFFF [0xC0#8]) = .next t ∧ t.walk.stat = .invalidInstruction) ∧
  ∃ t, step firstWalkDone = .next t ∧ t.walk.stat = .running ∧ firstWalkDone.walk.stat = .halted :=
  ⟨⟨_, rfl, by decide⟩, ⟨_, rfl, by decide⟩, ⟨_, rfl, by decide⟩⟩

theorem test_witness_StepEndsOrAdvances :
  (∃ t, step (walkAt .default 0#16 0xFFF [0x10#8]) = .next t ∧ t.walk.pc = 0x1000) ∧
  ∃ t, step (walkAt .default 0#16 0xFFF [0x20#8]) = .next t ∧ t.walk.phase = .aborted .invalidAddress :=
  ⟨⟨_, rfl, by decide⟩, ⟨_, rfl, by decide⟩⟩

theorem test_witness_WalkTerminates : (walkAt .default 0#16 0x1000 [0#8]).walk = .start ⟨0x1000#16, 1#16⟩ ∧
  Params.default.memSize ≤ (0x1000#16 : Addr16).toNat ∧ 0 < (1#16 : Addr16).toNat := by decide

/-- The state of P6 after its boot meets the invariant, and it has a next state. -/
theorem test_witness_InvariantIsKept : booted.Inv ∧ ∃ t, step booted = .next t ∧ t.walk.pc = 1 :=
  ⟨⟨rfl, rfl, rfl, ⟨[], rfl, (fun _ h => nomatch h), rfl, rfl, fun _ => rfl⟩, fun _ h => nomatch h⟩,
    ⟨_, rfl, by decide⟩⟩

theorem test_witness_FaultStatusIsFinal :
  ∃ s t : State, s.Inv ∧ step s = .next t ∧ t.walk.stat = .ofFault .invalidInstruction :=
  ⟨walkAt .default 0x010#16 0x010 [0xC0#8], _,
    ⟨by decide, by decide, by decide, ⟨[], rfl, (fun _ h => nomatch h), rfl, rfl, fun _ => rfl⟩, fun _ h => nomatch h⟩,
    rfl, by decide⟩

theorem test_witness_BootMeetsInvariant : ∃ s, boot .default image 0x10#16 = .next s := ⟨booted, rfl⟩

theorem test_witness_BootLoadsTheImage : boot .default image 0x10#16 = .next booted ∧
  ⟨.data, ⟨0x20#16, 2#16⟩, [0x00#8, 0x07#8]⟩ ∈ image ∧ 1 < [0x00#8, 0x07#8].length ∧
  (∀ g ∈ image, 0x22 < g.desc.virtualStart.toNat ∨ g.desc.segEnd ≤ 0x22) ∧
  codeSegments image = ⟨0#16, 1#16⟩ :: [⟨0x10#16, 1#16⟩] := ⟨rfl, by decide, by decide, by decide, by decide⟩

/-- P1's last instruction, walked alone: a complete run. -/
def completeRun : State :=
  { walkAt .default 0#16 0x020 [0x00#8] with walk :=
    { (walkAt .default 0#16 0x020 [0x00#8]).walk with
      pc := 0x021, stat := .halted, phase := .done, out := [.line 0x020 [0x00#8] (ins1 .halt 0x020)] } }

theorem test_witness_CompleteRunsHaveOnlyDoneWalks : completeRun.Inv ∧ step completeRun = .fault .runComplete := by
  refine ⟨⟨by decide, by decide, by decide,
    ⟨[⟨0x020, [0x00#8], ins1 .halt 0x020⟩], ⟨rfl, by decide, by decide, rfl⟩, by decide, rfl, rfl, .inl (by decide)⟩,
    fun _ h => nomatch h⟩, rfl⟩

/-- The second walk of P6 after its abort. -/
def abortedRun : State :=
  { walkAt .default 0x010#16 0x010 [0xC0#8] with walk :=
    { (walkAt .default 0x010#16 0x010 [0xC0#8]).walk with
      stat := .invalidInstruction
      phase := .aborted .invalidInstruction
      out := [.label 0x010, .diagnostic .invalidInstruction 0x010 0x010 (some 0xC0#8)] } }

theorem test_witness_AbortedRunsNameTheirFailure :
  abortedRun.Inv ∧ step abortedRun = .fault (.runAborted .invalidInstruction) ∧
    abortedRun.runStatus = .abort .invalidInstruction 0x010 (some 0xC0#8) := by
  refine ⟨⟨by decide, by decide, by decide, ⟨[], rfl, (fun _ h => nomatch h), ?_⟩, fun _ h => nomatch h⟩, rfl,
    by decide⟩
  exact ⟨0x010, some 0xC0#8, by decide, by decide, by decide, by decide⟩

theorem test_witness_LabelAtMostOnce : ∃ s : State, s.Inv ∧ (s.walk.out.filter isLabel).length = 1 :=
  ⟨abortedRun, test_witness_AbortedRunsNameTheirFailure.1, by decide⟩

end Sys2Proof.Tests
end

section
/-! PROOFS. The memory family: the immediate as the sum of its bytes (R50), and the AddressSpace that no step
writes (R47). -/

namespace Sys2Proof

/-- One more byte adds its zero extension, shifted to its place (R50). -/
theorem ofNat_leValue_succ (w : Nat) (M : Contents) (a n : Nat) :
    BitVec.ofNat w (leValue M a (n + 1)) =
      BitVec.ofNat w (leValue M a n) + (M (a + n)).setWidth w <<< (8 * n) := by
  have hbyte : BitVec.ofNat w (2 ^ (8 * n) * (M (a + n)).toNat) = (M (a + n)).setWidth w <<< (8 * n) := by
    apply BitVec.eq_of_toNat_eq
    simp [Nat.shiftLeft_eq, Nat.mul_comm]
  rw [leValue, BitVec.ofNat_add, hbyte]

/-- Settles O14, by adding the eight bytes one at a time to the empty sum. -/
theorem immediateIsLittleEndianSum : Obligations.ImmediateIsLittleEndianSum := by
  intro M q
  have hempty : BitVec.ofNat 64 (leValue M q 0) = 0 := rfl
  simp [immediateAt, ofNat_leValue_succ, hempty]

end Sys2Proof

namespace Sys2Proof.Machine

/-- None of the four things a step can do touches the AddressSpace, the entry point or the parameters
(R47, R190). -/
theorem step_keeps_mem_entryPoint_params {s t : State} (h : step s = .next t) :
    t.mem = s.mem ∧ t.entryPoint = s.entryPoint ∧ t.params = s.params := by
  rcases step_cases h with ⟨-, -, hend⟩ | ⟨-, -, f, -, hfault⟩ | ⟨-, -, i, -, hretire⟩ | ⟨-, g, rest, -, hstart⟩
  · simp [hend]
  · simp [hfault]
  · simp [hretire]
  · simp [hstart]

/-- Settles O46: a step keeps the memory itself, so every byte of it reads as before. -/
theorem spaceIsNeverWritten : Obligations.SpaceIsNeverWritten := by
  intro s t h
  obtain ⟨hmem, hentry, hparams⟩ := step_keeps_mem_entryPoint_params h
  exact ⟨fun a => by rw [hmem], hmem, hentry, hparams⟩

end Sys2Proof.Machine
end

section
/-! PROOFS. The encoding family: the length as a function of the class (R66), and the subfunction tables
(R75 to R77). -/

namespace Sys2Proof

/-- What the decoder finds has the class and the subfunction that the two nibbles of its first byte name (R68). -/
theorem iclass_ifun_of_decodeInstr {p : Params} {M : Contents} {a : Nat} {i : Instr}
    (h : decodeInstr p M a = .instr i) :
    i.iclass = IClass.ofNibble (hiNibble (M a)) ∧ i.ifun = loNibble (M a) := by
  obtain ⟨-, hop, -⟩ := decodeInstr_eq_instr.mp h
  obtain ⟨hc, hf⟩ := (Instr.opcodeByte_eq_iff i (M a)).mpr hop
  exact ⟨hc.symm, hf.symm⟩

/-- R66's table lists the lengths of the dispatch table, by class number. No parameter changes a format, so the
default dispatch table serves for all. -/
theorem lengthTable_eq_dispatch : ∀ n : Nibble, [1, 1, 2, 10, 10, 10, 2, 9, 9, 1, 2, 2][n.toNat]? =
    (Params.default.dispatch (IClass.ofNibble n)).map fun e => e.fmt.length := by decide

/-- Settles O10: the instruction found is of the class of the high nibble, and has the format of that class's
entry. -/
theorem lengthByClass : Obligations.LengthByClass := by
  intro p M a ins h
  obtain ⟨i, hi, rfl⟩ := decode_eq_ok.mp h
  obtain ⟨hclass, -⟩ := iclass_ifun_of_decodeInstr hi
  obtain ⟨e, he, hfmt, -⟩ := Instr.dispatch_iclass .default i
  rw [lengthTable_eq_dispatch, ← hclass, he, Option.map_some, hfmt]
  rfl

/-- R75: the conditional moves and their mnemonics, by subfunction. -/
theorem Instr.conditionalMove_tables : ∀ {i : Instr}, i.iclass = .conditionalMove →
    [Instr.rrmovq i.rA i.rB, .cmovle i.rA i.rB, .cmovl i.rA i.rB, .cmove i.rA i.rB, .cmovne i.rA i.rB,
      .cmovge i.rA i.rB, .cmovg i.rA i.rB][i.ifun.toNat]? = some i ∧
    ["rrmovq", "cmovle", "cmovl", "cmove", "cmovne", "cmovge", "cmovg"][i.ifun.toNat]? = some i.mnemonic
  | .rrmovq _ _, _ | .cmovle _ _, _ | .cmovl _ _, _ | .cmove _ _, _ | .cmovne _ _, _ | .cmovge _ _, _
  | .cmovg _ _, _ => ⟨rfl, rfl⟩

/-- R76: the arithmetic instructions and their mnemonics, by subfunction. -/
theorem Instr.arithmeticOp_tables : ∀ {i : Instr}, i.iclass = .arithmeticOp →
    [Instr.addq i.rA i.rB, .subq i.rA i.rB, .andq i.rA i.rB, .xorq i.rA i.rB][i.ifun.toNat]? = some i ∧
    ["addq", "subq", "andq", "xorq"][i.ifun.toNat]? = some i.mnemonic
  | .addq _ _, _ | .subq _ _, _ | .andq _ _, _ | .xorq _ _, _ => ⟨rfl, rfl⟩

/-- R77: the jumps and their mnemonics, by subfunction. -/
theorem Instr.jump_tables : ∀ {i : Instr}, i.iclass = .jump →
    ∃ c, [Instr.jmp c, .jle c, .jl c, .je c, .jne c, .jge c, .jg c][i.ifun.toNat]? = some i ∧
    ["jmp", "jle", "jl", "je", "jne", "jge", "jg"][i.ifun.toNat]? = some i.mnemonic
  | .jmp c, _ | .jle c, _ | .jl c, _ | .je c, _ | .jne c, _ | .jge c, _ | .jg c, _ => ⟨c, rfl, rfl⟩

/-- Settles O13: the high nibble fixes the class, and the class's tables are read at the subfunction, which is the
low nibble. -/
theorem subfunctionTables : Obligations.SubfunctionTables := by
  intro p M a i h
  obtain ⟨hclass, hifun⟩ := iclass_ifun_of_decodeInstr h
  rw [← hifun]
  refine ⟨fun hhi => ⟨i.rA, i.rB, Instr.conditionalMove_tables ?_⟩,
    fun hhi => ⟨i.rA, i.rB, Instr.arithmeticOp_tables ?_⟩, fun hhi => Instr.jump_tables ?_⟩
  all_goals simp [hclass, IClass.ofNibble, hhi]

end Sys2Proof
end

section
/-! PROOFS. The decode family: an opcode byte of the Invalid class (R104). -/

namespace Sys2Proof

/-- R70: the high nibbles that no opcode class has. -/
theorem IClass.ofNibble_eq_invalid_iff :
    ∀ n : Nibble, IClass.ofNibble n = .invalid ↔ 0xC ≤ n.toNat := by decide

/-- Settles O5: the opcode byte's high nibble fixes the class, the Invalid class has no entry in the dispatch table,
and so the decode fails on that byte alone, the only one that the two spaces must share. -/
theorem invalidClassFailsOnItsByte : Obligations.InvalidClassFailsOnItsByte := by
  intro p M M' a ha hnibble hbyte
  have hclass : IClass.ofNibble (hiNibble (M a)) = .invalid :=
    (IClass.ofNibble_eq_invalid_iff _).mpr hnibble
  have hentry : p.dispatch (IClass.ofNibble (hiNibble (M' a))) = none := by
    rw [hbyte, hclass]
    rfl
  exact ⟨hclass, by rw [decode_of_invalid ha hentry, hbyte]⟩

end Sys2Proof
end

section
/-! PROOFS. The moves family: the whole decode of the two classes whose register byte holds two ordinary registers
(R130, R150). -/

namespace Sys2Proof

open Claims

/-- The sentinel's nibble is the one that names no ordinary register (R25). -/
theorem RegId.ordinary_ofNibble_eq_false_iff :
    ∀ n : Nibble, (RegId.ofNibble n).ordinary = false ↔ n.toNat = 0xF := by decide

/-- A two-byte format ends with its second byte, so the two orders of the checks agree on it. -/
theorem Params.firstFailure_f2 {p : Params} {a : Nat} {valid : Bool} (ha : a < p.memSize) :
    p.firstFailure a Format.f2.length Format.f2.immOff valid =
      if p.memSize ≤ a + 1 then some (.invalidAddress, a + 1)
      else if valid = false then some (.invalidInstruction, a) else none := by
  rw [Params.firstFailure_eq .f2 ha]
  by_cases hsecond : p.memSize ≤ a + 1
  · have hend : p.memSize = a + 1 := by omega
    simp [hend, Format.length]
  · have hfits : ¬ p.memSize < a + 2 := by omega
    simp [hsecond, hfits, Format.length]

/-- The table entry of a class of register pairs with subfunctions up to `m` (R81). -/
def Entry.registerPair (m : Nat) : Entry := ⟨.f2, m, some .reg, some .reg⟩

/-- The fields of a register pair are invalid for a subfunction above the largest, or a sentinel in either place
(R72, R111). -/
theorem Entry.registerPair_valid_eq_false_iff {m : Nat} {f : Nibble} {rA rB : RegId} :
    (Entry.registerPair m).valid f rA rB = false ↔ m < f.toNat ∨ rA.ordinary = false ∨ rB.ordinary = false := by
  have hvalid : (Entry.registerPair m).valid f rA rB =
      (decide (f.toNat ≤ m) && rA.ordinary && rB.ordinary) := rfl
  simp only [hvalid, Bool.and_eq_false_iff, decide_eq_false_iff_not, Nat.not_le, or_assoc]

/-- R130, R150: the decode of a class whose table entry is a register pair. -/
theorem decode_of_registerPair {p : Params} {M : Contents} {a m : Nat} {c : IClass}
    (hc : IClass.ofNibble (hiNibble (M a)) = c) (he : p.dispatch c = some (.registerPair m)) :
    decode p M a =
      if p.memSize ≤ a then failIA a none
      else if p.memSize ≤ a + 1 then failIA (a + 1) (some (M a))
      else if m < (loNibble (M a)).toNat then failII a (some (M a))
      else if (hiNibble (M (a + 1))).toNat = 0xF then failII a (some (M a))
      else if (loNibble (M (a + 1))).toNat = 0xF then failII a (some (M a))
      else .ok (ins2 c ((loNibble (M a)).setWidth 8) (RegId.ofNibble (hiNibble (M (a + 1))))
        (RegId.ofNibble (loNibble (M (a + 1)))) a) := by
  subst hc
  by_cases ha : p.memSize ≤ a
  · rw [if_pos ha, decode_of_outside ha]
  rw [if_neg ha, decode_of_entry (by omega) he]
  have hA : (Entry.registerPair m).rA (M (a + 1)) = RegId.ofNibble (hiNibble (M (a + 1))) := rfl
  have hB : (Entry.registerPair m).rB (M (a + 1)) = RegId.ofNibble (loNibble (M (a + 1))) := rfl
  have hfmt : (Entry.registerPair m).fmt = .f2 := rfl
  simp only [hA, hB, hfmt, Params.firstFailure_f2 (show a < p.memSize by omega),
    Entry.registerPair_valid_eq_false_iff, RegId.ordinary_ofNibble_eq_false_iff]
  by_cases hsecond : p.memSize ≤ a + 1
  · simp [hsecond]
  by_cases hsub : m < (loNibble (M a)).toNat
  · simp [hsecond, hsub]
  by_cases hrA : (hiNibble (M (a + 1))).toNat = 0xF
  · simp [hsecond, hrA]
  by_cases hrB : (loNibble (M (a + 1))).toNat = 0xF
  · simp [hsecond, hrB]
  · simp [hsecond, hsub, hrA, hrB, ins2, Entry.valC, Format.immOff, Format.length, hfmt]

/-- Settles O19: both classes have a register pair's entry in the dispatch table, with subfunctions up to 6 and up
to 3. -/
theorem registerPairDecode : Obligations.RegisterPairDecode := by
  intro p M a c hc hnibble
  obtain rfl | rfl : c = (2, 6, .conditionalMove) ∨ c = (6, 3, .arithmeticOp) := by simpa using hc
  · exact decode_of_registerPair (by simp [IClass.ofNibble, hnibble]) rfl
  · exact decode_of_registerPair (by simp [IClass.ofNibble, hnibble]) rfl

end Sys2Proof
end

section
/-! PROOFS. The round trip of the encoding (R65, R81): the bytes an instruction stands in are those the decoder
looks at, so the decoder finds exactly what was encoded. -/

namespace Sys2Proof

@[simp] theorem bytesAt_zero (M : Contents) (a : Nat) : bytesAt M a 0 = [] := rfl

theorem bytesAt_succ (M : Contents) (a n : Nat) : bytesAt M a (n + 1) = M a :: bytesAt M (a + 1) n := by
  simp [bytesAt, List.range_succ_eq_map, Nat.add_assoc, Nat.add_comm 1]

/-- Contents that agree on `n` bytes show the same bytes there. -/
theorem bytesAt_congr {M M' : Contents} {a n : Nat} (h : ∀ x, a ≤ x → x < a + n → M' x = M x) :
    bytesAt M' a n = bytesAt M a n :=
  List.map_congr_left fun k hk => h (a + k) (by omega) (by have := List.mem_range.mp hk; omega)

/-- The bytes of an immediate stand at an address exactly if it is read from there (R50, R65). -/
theorem bytesAt_eq_immediateBytes_iff {M : Contents} {a : Nat} {c : Word64} :
    bytesAt M a immBytes = immediateBytes c ↔ c = immediateAt M a := by
  rw [@eq_comm _ c, immediateAt_eq_iff]
  simp [bytesAt, immediateBytes, List.mem_range]

/-- An instruction carries an immediate exactly if its format has a place for it (R32, R65). -/
theorem Instr.valC_isSome (i : Instr) : i.valC.isSome = i.format.immOff.isSome := by cases i <;> rfl

theorem Instr.length_encode (i : Instr) : (encode i).length = i.length := by cases i <;> rfl

/-- The bytes at an address are an instruction's encoding exactly if its opcode byte, its register byte and its
immediate, those that its format has, stand in their places (R65). -/
theorem bytesAt_eq_encode_iff {M : Contents} {a : Nat} {i : Instr} :
    bytesAt M a i.length = encode i ↔
      M a = i.opcodeByte ∧ (i.format.hasReg = true → M (a + 1) = i.registerByte) ∧
      i.valC = i.format.immOff.map fun off => immediateAt M (a + off) := by
  have hsome := i.valC_isSome
  have himm (x : Nat) (c : Word64) : bytesAt M x immBytes = immediateBytes c ↔ c = immediateAt M x :=
    bytesAt_eq_immediateBytes_iff
  cases hf : i.format <;> cases hv : i.valC <;> simp [hf, hv, Format.immOff] at hsome
  case f1.none => simp [encode, Instr.length, Format.length, Format.hasReg, Format.immOff, bytesAt_succ, hf, hv]
  case f2.none => simp [encode, Instr.length, Format.length, Format.hasReg, Format.immOff, bytesAt_succ, hf, hv]
  case f9.some c =>
    have hlen : i.length = immBytes + 1 := by simp [Instr.length, hf, Format.length]
    rw [hlen, bytesAt_succ]
    simp [encode, Format.hasReg, Format.immOff, hf, hv, himm]
  case f10.some c =>
    have hlen : i.length = immBytes + 1 + 1 := by simp [Instr.length, hf, Format.length]
    rw [hlen, bytesAt_succ, bytesAt_succ]
    simp [encode, Format.hasReg, Format.immOff, hf, hv, himm]

/-- The decoder finds an instruction exactly where its encoding fits the space and stands, and it is well formed
(R103, R65). -/
theorem decodeInstr_eq_instr_iff_encode {p : Params} {M : Contents} {a : Nat} {i : Instr} :
    decodeInstr p M a = .instr i ↔
      i.wellFormed p = true ∧ bytesAt M a i.length = encode i ∧ a + i.length ≤ p.memSize := by
  rw [decodeInstr_eq_instr, bytesAt_eq_encode_iff]
  exact ⟨fun ⟨⟨hfits, hwf⟩, hbytes⟩ => ⟨hwf, hbytes, hfits⟩, fun ⟨hwf, hbytes, hfits⟩ => ⟨⟨hfits, hwf⟩, hbytes⟩⟩

/-- Settles O2: the encoding is as long as the instruction, and the decoder finds an instruction wherever its
encoding stands. -/
theorem decodeOfEncode : Obligations.DecodeOfEncode := by
  intro p M a i hwf hfits hbytes
  rw [i.length_encode] at hfits hbytes
  exact decodeInstr_eq_instr_iff_encode.mpr ⟨hwf, hbytes, hfits⟩

/-- Settles O3, by the other direction. -/
theorem encodeOfDecode : Obligations.EncodeOfDecode :=
  fun _ _ _ _ h => decodeInstr_eq_instr_iff_encode.mp h

end Sys2Proof
end

section
/-! PROOFS. The invariant (R194, R195, R198, R23): a listing grows by one line at a time, and every step keeps the
walk's output the exact listing. -/

namespace Sys2Proof.Machine

/-- Listings are put together where one ends and the next begins. -/
theorem Tiles.append {p : Params} {M : Contents} {a b c : Nat} {ls ms : List ListingLine}
    (hl : Tiles p M a ls b) (hm : Tiles p M b ms c) : Tiles p M a (ls ++ ms) c := by
  induction ls generalizing a with
  | nil => obtain rfl : a = b := hl; exact hm
  | cons l ls ih =>
    obtain ⟨haddr, hdec, hbytes, hrest⟩ := hl
    exact ⟨haddr, hdec, hbytes, ih hrest⟩

/-- The line that a step lists for the instruction `i` at `a` (R194). -/
def lineOf (M : Contents) (a : Nat) (i : Instr) : ListingLine := ⟨a, bytesAt M a i.length, i.record a⟩

theorem tiles_lineOf {p : Params} {M : Contents} {a : Nat} {i : Instr} (h : decodeInstr p M a = .instr i) :
    Tiles p M a [lineOf M a i] (a + i.length) :=
  ⟨rfl, decode_eq_ok.mpr ⟨i, h, rfl⟩, rfl, rfl⟩

theorem listing_append (entry : Nat) (ls ms : List ListingLine) :
    listing entry (ls ++ ms) = listing entry ls ++ listing entry ms := List.flatMap_append

theorem listing_lineOf (entry : Nat) (M : Contents) (a : Nat) (i : Instr) :
    listing entry [lineOf M a i] = labelAt entry a ++ [.line a (bytesAt M a i.length) (i.record a)] := by
  simp [listing, lineOf]

theorem haltListed_append_lineOf (ls : List ListingLine) (M : Contents) (a : Nat) (i : Instr) :
    haltListed (ls ++ [lineOf M a i]) = (haltListed ls || decide (i.iclass = .halt)) := by
  simp [haltListed, lineOf, Instr.record]

/-- One more line updates the status as R23 says. -/
theorem statAfter_append_lineOf (ls : List ListingLine) (M : Contents) (a : Nat) (i : Instr) :
    statAfter (ls ++ [lineOf M a i]) = (statAfter ls).afterOk i.iclass := by
  unfold statAfter Stat.afterOk
  rw [haltListed_append_lineOf]
  by_cases hhalt : i.iclass = .halt <;> simp [hhalt]

/-- A walk at its start lists nothing (R191). -/
theorem Walk.sound_start (p : Params) (M : Contents) (entry : Nat) (g : Segment) :
    (Walk.start g).sound p M entry :=
  ⟨[], rfl, by simp, rfl, rfl, fun _ => rfl⟩

/-- The normal end of a walk keeps it sound (R193). -/
theorem State.endWalk_sound {s : State} {entry : Nat} (hwalking : s.walk.phase = .walking)
    (hend : s.walk.seg.segEnd ≤ s.walk.pc) (h : s.walk.sound s.params s.contents entry) :
    s.endWalk.walk.sound s.params s.contents entry := by
  obtain ⟨ls, htiles, hin, hphase⟩ := h
  rw [hwalking] at hphase
  obtain ⟨hout, hstat, -⟩ := hphase
  exact ⟨ls, htiles, hin, hout, hstat, .inl hend⟩

/-- A failed decode, after the entry label, keeps the walk sound (R195, R198). -/
theorem State.takeFault_sound {s : State} {f : Failure} (hwalking : s.walk.phase = .walking)
    (hin : s.walk.pc < s.walk.seg.segEnd) (hdec : s.decodeHere = .failed f)
    (h : s.walk.sound s.params s.contents s.entryPoint.toNat) :
    (s.emitLabel.takeFault f).walk.sound s.params s.contents s.entryPoint.toNat := by
  obtain ⟨ls, htiles, hstarts, hphase⟩ := h
  rw [hwalking] at hphase
  obtain ⟨hout, -, -⟩ := hphase
  refine ⟨ls, by simpa using htiles, by simpa using hstarts, f.addr, f.raw, ?_⟩
  simp [hin, hout, labelAt, State.emitLabel_out, decode_eq_fail.mpr hdec]

/-- A decoded instruction's effect, after the entry label, keeps the walk sound (R194, R198): its line is the next
one. -/
theorem State.retire_sound {s : State} {i : Instr} (hwalking : s.walk.phase = .walking)
    (hin : s.walk.pc < s.walk.seg.segEnd) (hdec : s.decodeHere = .instr i)
    (h : s.walk.sound s.params s.contents s.entryPoint.toNat) :
    (s.emitLabel.retire i).walk.sound s.params s.contents s.entryPoint.toNat := by
  obtain ⟨ls, htiles, hstarts, hphase⟩ := h
  rw [hwalking] at hphase
  obtain ⟨hout, hstat, hnohalt⟩ := hphase
  refine ⟨ls ++ [lineOf s.contents s.walk.pc i], ?_, ?_, ?_⟩
  · simpa using htiles.append (tiles_lineOf hdec)
  · intro l hl
    rcases List.mem_append.mp hl with hl | hl
    · simpa using hstarts l hl
    · obtain rfl := List.mem_singleton.mp hl
      simpa [lineOf] using hin
  · have hout' : (s.emitLabel.retire i).walk.out =
        listing s.entryPoint.toNat (ls ++ [lineOf s.contents s.walk.pc i]) := by
      simp [hout, State.emitLabel_out, listing_append, listing_lineOf, labelAt]
    have hstat' : (s.emitLabel.retire i).walk.stat = statAfter (ls ++ [lineOf s.contents s.walk.pc i]) := by
      simp [hstat, statAfter_append_lineOf]
    by_cases hstop : s.params.haltStopsWalk = true ∧ i.iclass = .halt
    · have hdone : (s.emitLabel.retire i).walk.phase = .done := by simp [Phase.afterOk, hstop]
      rw [hdone]
      exact ⟨hout', hstat', .inr ⟨hstop.1, by simp [haltListed_append_lineOf, hstop.2]⟩⟩
    · have hon : (s.emitLabel.retire i).walk.phase = .walking := by simp [Phase.afterOk, hstop, hwalking]
      rw [hon]
      exact ⟨hout', hstat', fun hp => by
        simpa [haltListed_append_lineOf, hnohalt hp] using fun hc => hstop ⟨hp, hc⟩⟩

/-- A step keeps the invariant if it leaves a sound walk and ends no walk but the one in Done, since it never writes
the space, the entry point or a parameter. -/
theorem State.Inv.of_step {s t : State} (hs : s.Inv) (h : step s = .next t)
    (hwalk : t.walk.sound s.params s.contents s.entryPoint.toNat)
    (hended : ∀ w ∈ t.finished, w ∈ s.finished ∨ w = s.walk ∧ w.phase = .done) : t.Inv := by
  obtain ⟨hmem, hentry, hparams⟩ := step_keeps_mem_entryPoint_params h
  have hcontents : t.contents = s.contents := by rw [State.contents, hmem, State.contents]
  constructor <;> simp only [hmem, hparams, hentry, hcontents]
  case params_wf => exact hs.params_wf
  case mem_wf => exact hs.mem_wf
  case mem_within => exact hs.mem_within
  case walk_sound => exact hwalk
  case walks_ended =>
    intro w hw
    rcases hended w hw with hw | ⟨rfl, hdone⟩
    · exact hs.walks_ended w hw
    · exact ⟨hdone, hs.walk_sound⟩

/-- Settles O52: each of the four things a step can do leaves a sound walk, and the fourth keeps the ended one. -/
theorem invariantIsKept : Obligations.InvariantIsKept := by
  intro s t hs h
  rcases step_cases h with ⟨hw, hend, rfl⟩ | ⟨hw, hin, f, hf, rfl⟩ | ⟨hw, hin, i, hi, rfl⟩ | ⟨hd, g, rest, -, rfl⟩
  · exact hs.of_step h (State.endWalk_sound hw hend hs.walk_sound) fun w hm => .inl (by simpa using hm)
  · exact hs.of_step h (State.takeFault_sound hw hin hf hs.walk_sound) fun w hm => .inl (by simpa using hm)
  · exact hs.of_step h (State.retire_sound hw hin hi hs.walk_sound) fun w hm => .inl (by simpa using hm)
  · refine hs.of_step h (Walk.sound_start _ _ _ g) fun w hm => ?_
    rcases List.mem_append.mp hm with hm | hm
    · exact .inl hm
    · obtain rfl := List.mem_singleton.mp hm
      exact .inr ⟨rfl, hd⟩

end Sys2Proof.Machine
end

section
/-! PROOFS. The decode as one chain of checks (R112, R114), and what follows from it for every class: the failures,
the record, the bytes that are read. -/

namespace Sys2Proof

open Claims

/-- The validation predicate of R111 over the fields that the bytes at `a` give. -/
abbrev Entry.validAt (e : Entry) (M : Contents) (a : Nat) : Bool :=
  e.valid (loNibble (M a)) (e.rA (M (a + 1))) (e.rB (M (a + 1)))

/-- The record of R31 that the bytes at `a` give, read with the table entry `e`. -/
def Entry.record (e : Entry) (M : Contents) (a : Nat) : Ins :=
  { icode := IClass.ofNibble (hiNibble (M a))
    ifun := (loNibble (M a)).setWidth 8
    rA := e.rA (M (a + 1))
    rB := e.rB (M (a + 1))
    valC := e.valC M a
    len := e.fmt.length
    valP := a + e.fmt.length }

/-- The whole decode of an opcode byte whose class has a table entry (R103, R114): the second byte, the last byte
with `BoundsFirst`, the fields, the last byte. -/
theorem decode_eq_of_entry {p : Params} {M : Contents} {a : Nat} {e : Entry} (ha : a < p.memSize)
    (he : p.dispatch (IClass.ofNibble (hiNibble (M a))) = some e) :
    decode p M a =
      if 2 ≤ e.fmt.length ∧ p.memSize ≤ a + 1 then failIA p.memSize (some (M a))
      else if p.immCheckOrder = .boundsFirst ∧ p.memSize < a + e.fmt.length then
        failIA p.memSize (some (M a))
      else if e.validAt M a = false then failII a (some (M a))
      else if p.memSize < a + e.fmt.length then failIA p.memSize (some (M a))
      else .ok (e.record M a) := by
  rw [decode_of_entry ha he, Params.firstFailure_eq e.fmt ha]
  by_cases hsecond : 2 ≤ e.fmt.length ∧ p.memSize ≤ a + 1
  · rw [if_pos hsecond, if_pos hsecond]
  rw [if_neg hsecond, if_neg hsecond]
  by_cases hbounds : p.immCheckOrder = .boundsFirst ∧ p.memSize < a + e.fmt.length
  · rw [if_pos hbounds, if_pos hbounds]
  rw [if_neg hbounds, if_neg hbounds]
  by_cases hbad : e.validAt M a = false
  · rw [if_pos hbad, if_pos hbad]
  rw [if_neg hbad, if_neg hbad]
  by_cases htrunc : p.memSize < a + e.fmt.length
  · rw [if_pos htrunc, if_pos htrunc]
  rw [if_neg htrunc, if_neg htrunc]
  rfl

/-- A successful decode found a table entry, its bytes fit, and its record is the one the bytes give (R111). -/
theorem entry_of_decode_eq_ok {p : Params} {M : Contents} {a : Nat} {ins : Ins} (h : decode p M a = .ok ins) :
    ∃ e, p.dispatch (IClass.ofNibble (hiNibble (M a))) = some e ∧ a + e.fmt.length ≤ p.memSize ∧
      ins = e.record M a := by
  by_cases ha : p.memSize ≤ a
  · rw [decode_of_outside ha] at h
    contradiction
  cases he : p.dispatch (IClass.ofNibble (hiNibble (M a))) with
  | none =>
    rw [decode_of_invalid (by omega) he] at h
    contradiction
  | some e =>
    rw [decode_eq_of_entry (by omega) he] at h
    split at h
    · contradiction
    split at h
    · contradiction
    split at h
    · contradiction
    split at h
    · contradiction
    next hfits => exact ⟨e, rfl, by omega, (DecodeResult.ok.inj h).symm⟩

/-- Settles O4: the chain of checks, read clause by clause. -/
theorem firstFailureInOrder : Obligations.FirstFailureInOrder := by
  intro p M a
  refine ⟨decode_of_outside, fun ha hn => ?_, fun e ha he => ?_⟩
  · exact (invalidClassFailsOnItsByte p M M a ha hn rfl).2
  have hlen := e.fmt.one_le_length
  have himm : e.fmt.immOff.isSome = true ↔ 2 < e.fmt.length := by cases e.fmt <;> decide
  rw [decode_eq_of_entry ha he]
  refine ⟨fun h2 hsecond => ?_, fun hsecond => ⟨fun ho => ⟨fun hbad => ?_, fun hgood hi htrunc => ?_⟩,
    fun ho => ⟨fun hi htrunc => ?_, fun hfits hbad => ?_⟩⟩, fun hfits hgood => ?_⟩
  · rw [if_pos ⟨h2, hsecond⟩, show p.memSize = a + 1 by omega]
  · rw [if_neg (by omega), if_neg (by simp [ho]), if_pos hbad]
  · rw [if_neg (by omega), if_neg (by simp [ho]), if_neg (by simp [hgood]), if_pos htrunc]
  · rw [if_neg (by omega), if_pos ⟨ho, htrunc⟩]
  · have hin : a + e.fmt.length ≤ p.memSize := by
      rcases hfits with hshort | hfits
      · have : ¬ 2 < e.fmt.length := by rw [← himm, hshort]; decide
        omega
      · exact hfits
    rw [if_neg (by omega), if_neg (by omega), if_pos hbad]
  · rw [if_neg (by omega), if_neg (by omega), if_neg (by simp [hgood]), if_neg (by omega)]
    exact ⟨_, rfl⟩

/-- No parameter changes the format of a class (R66). -/
theorem Params.dispatch_fmt (p : Params) (c : IClass) :
    (p.dispatch c).map Entry.fmt = (Params.default.dispatch c).map Entry.fmt := by cases c <;> rfl

/-- The classes of two or more bytes, by class number (R66, R70). -/
theorem dispatch_of_long_class (p : Params) {n : Nibble} (h : n.toNat ∈ [2, 3, 4, 5, 6, 7, 8, 10, 11]) :
    ∃ e, p.dispatch (IClass.ofNibble n) = some e ∧ 2 ≤ e.fmt.length := by
  have htable : ∀ n : Nibble, n.toNat ∈ [2, 3, 4, 5, 6, 7, 8, 10, 11] →
      ∃ f ∈ (Params.default.dispatch (IClass.ofNibble n)).map Entry.fmt, 2 ≤ f.length := by decide
  obtain ⟨f, hf, h2⟩ := htable n h
  rw [← p.dispatch_fmt] at hf
  obtain ⟨e, he, rfl⟩ := Option.map_eq_some_iff.mp hf
  exact ⟨e, he, h2⟩

/-- A class of more than two bytes carries an immediate, and is one of these (R32, R70). -/
theorem class_of_two_lt_length {p : Params} {n : Nibble} {e : Entry}
    (he : p.dispatch (IClass.ofNibble n) = some e) (h : 2 < e.fmt.length) : n.toNat ∈ [3, 4, 5, 7, 8] := by
  have htable : ∀ n : Nibble, ∀ f ∈ (Params.default.dispatch (IClass.ofNibble n)).map Entry.fmt,
      2 < f.length → n.toNat ∈ [3, 4, 5, 7, 8] := by decide
  refine htable n e.fmt ?_ h
  rw [← p.dispatch_fmt, he]
  rfl

/-- Settles O6: the second byte is the first check of every class that has one. -/
theorem secondByteOutOfRange : Obligations.SecondByteOutOfRange := by
  intro p M a ha hn
  obtain ⟨e, he, h2⟩ := dispatch_of_long_class p hn
  rw [decode_eq_of_entry (by omega) he, if_pos ⟨h2, by omega⟩]

/-- Settles O7, from the three ways a decode can fail. -/
theorem faultAddresses : Obligations.FaultAddresses := by
  intro p M a f h
  rcases decodeInstr_eq_failed (decode_eq_fail.mp h) with ⟨ha, rfl⟩ | ⟨ha, -, rfl⟩ | ⟨ha, e, k, x, -, hff, rfl⟩
  · refine ⟨fun _ => rfl, fun hin => by omega, fun hin => by omega, fun hk => by contradiction⟩
  · exact ⟨fun hout => by omega, fun _ => rfl, fun _ hk => by contradiction, fun _ => rfl⟩
  · rcases Params.firstFailure_eq_some ha hff with ⟨rfl, rfl, -⟩ | ⟨rfl, rfl, -⟩
    · exact ⟨fun hout => by omega, fun _ => rfl, fun _ _ => rfl, fun hk => by contradiction⟩
    · exact ⟨fun hout => by omega, fun _ => rfl, fun _ hk => by contradiction, fun _ => rfl⟩

/-- Settles O8: the record's `valP` and length are those of the class's format. -/
theorem successEndsInsideSpace : Obligations.SuccessEndsInsideSpace := by
  intro p M a ins h
  obtain ⟨e, -, hfits, rfl⟩ := entry_of_decode_eq_ok h
  refine ⟨rfl, hfits, ?_⟩
  show e.fmt.length ∈ [1, 2, 9, 10]
  cases e.fmt <;> decide

/-- Settles O9: the record is the one the bytes give, and each format has its register byte and its immediate where
its length says. -/
theorem recordFields : Obligations.RecordFields := by
  intro p M a ins h
  obtain ⟨⟨fmt, m, cA, cB⟩, he, -, rfl⟩ := entry_of_decode_eq_ok h
  refine ⟨rfl, fun hinvalid => ?_, rfl, ?_⟩
  · rw [show IClass.ofNibble (hiNibble (M a)) = .invalid from hinvalid] at he
    contradiction
  · cases fmt <;> exact ⟨rfl, rfl, rfl⟩

/-- The order of the checks is the one parameter of the chain, beside the size of the space (R114). -/
theorem decode_withOrder {p : Params} {M : Contents} {a : Nat} {e : Entry} (o : ImmCheckOrder)
    (ha : a < p.memSize) (he : p.dispatch (IClass.ofNibble (hiNibble (M a))) = some e) :
    decode { p with immCheckOrder := o } M a =
      if 2 ≤ e.fmt.length ∧ p.memSize ≤ a + 1 then failIA p.memSize (some (M a))
      else if o = .boundsFirst ∧ p.memSize < a + e.fmt.length then failIA p.memSize (some (M a))
      else if e.validAt M a = false then failII a (some (M a))
      else if p.memSize < a + e.fmt.length then failIA p.memSize (some (M a))
      else .ok (e.record M a) :=
  decode_eq_of_entry ha he

/-- Settles O15: where the two chains differ, the second byte is inside the space, the last byte is not, and the
fields are invalid. -/
theorem checkOrdersDisagreeOnlyWhenBothFail : Obligations.CheckOrdersDisagreeOnlyWhenBothFail := by
  intro p M a hne
  have hin : a < p.memSize := Nat.lt_of_not_le fun hout => hne
    (Eq.trans (decode_of_outside hout) (Eq.symm (decode_of_outside hout)))
  cases he : p.dispatch (IClass.ofNibble (hiNibble (M a))) with
  | none =>
    exact False.elim (hne (Eq.trans (decode_of_invalid hin he) (Eq.symm (decode_of_invalid hin he))))
  | some e =>
    rw [decode_withOrder .fieldsFirst hin he, decode_withOrder .boundsFirst hin he] at hne ⊢
    have hsecond : ¬ (2 ≤ e.fmt.length ∧ p.memSize ≤ a + 1) := fun h => by simp [h] at hne
    have htrunc : p.memSize < a + e.fmt.length := Decidable.byContradiction fun h => by simp [h] at hne
    have hbad : e.validAt M a = false := Decidable.byContradiction fun h => by simp [h, htrunc] at hne
    have hmax : e.fmt.length ≤ 10 := e.fmt.length_le_maxLen
    refine ⟨by omega, class_of_two_lt_length he (by omega), by omega, ?_, ?_⟩
    · rw [if_neg hsecond, if_neg (by simp), if_pos hbad]
    · rw [if_neg hsecond, if_pos ⟨rfl, htrunc⟩]

/-- An immediate depends on its eight bytes (R50). -/
theorem immediateAt_congr {M M' : Contents} {a : Nat} (h : ∀ x, a ≤ x → x < a + immBytes → M' x = M x) :
    immediateAt M' a = immediateAt M a :=
  immediateAt_eq_iff.mpr fun i hi => by
    rw [h (a + i) (by omega) (by omega)]
    exact immediateAt_eq_iff.mp rfl i hi

/-- The register fields depend on the second byte only where the format has a register byte (R111). -/
theorem Entry.registers_congr (e : Entry) (b b' : Byte) (h : e.fmt.hasReg = true → b' = b) :
    e.rA b' = e.rA b ∧ e.rB b' = e.rB b := by
  unfold Entry.rA Entry.rB
  cases hreg : e.fmt.hasReg
  · exact ⟨rfl, rfl⟩
  · rw [h hreg]
    exact ⟨rfl, rfl⟩

theorem Format.two_le_length_of_hasReg : ∀ {f : Format}, f.hasReg = true → 2 ≤ f.length
  | .f2, _ => by decide
  | .f10, _ => by decide

/-- The record that an entry reads depends on the bytes of its format (R111). -/
theorem Entry.record_congr {M M' : Contents} {a : Nat} (e : Entry)
    (h : ∀ x, a ≤ x → x < a + e.fmt.length → M' x = M x) : e.record M' a = e.record M a := by
  have hlen := e.fmt.one_le_length
  have hop : M' a = M a := h a (by omega) (by omega)
  obtain ⟨hrA, hrB⟩ := e.registers_congr (M (a + 1)) (M' (a + 1)) fun hreg =>
    h (a + 1) (by omega) (by have := Format.two_le_length_of_hasReg hreg; omega)
  have himm : e.valC M' a = e.valC M a := by
    unfold Entry.valC
    cases hi : e.fmt.immOff with
    | none => rfl
    | some off =>
      obtain ⟨-, hoff⟩ := Format.immOff_some hi
      rw [Option.map_some, Option.map_some, immediateAt_congr fun x h1 h2 => h x (by omega) (by omega)]
  simp only [Entry.record, hop, hrA, hrB, himm]

/-- A decode depends on the bytes from its address on, as many as the longest instruction has, that are inside the
space (R113). -/
theorem decode_congr {p : Params} {M M' : Contents} {a : Nat}
    (h : ∀ x, a ≤ x → x ≤ a + 9 → x < p.memSize → M' x = M x) : decode p M' a = decode p M a := by
  by_cases ha : p.memSize ≤ a
  · rw [decode_of_outside ha, decode_of_outside ha]
  have hin : a < p.memSize := by omega
  have hop : M' a = M a := h a (by omega) (by omega) hin
  cases he : p.dispatch (IClass.ofNibble (hiNibble (M a))) with
  | none => rw [decode_of_invalid hin he, decode_of_invalid hin (by rw [hop, he]), hop]
  | some e =>
    have hmax : e.fmt.length ≤ 10 := e.fmt.length_le_maxLen
    rw [decode_eq_of_entry hin he, decode_eq_of_entry hin (by rw [hop, he]), hop]
    by_cases hsecond : 2 ≤ e.fmt.length ∧ p.memSize ≤ a + 1
    · rw [if_pos hsecond, if_pos hsecond]
    have hvalid : e.validAt M' a = e.validAt M a := by
      obtain ⟨hrA, hrB⟩ := e.registers_congr (M (a + 1)) (M' (a + 1)) fun hreg =>
        h (a + 1) (by omega) (by omega) (by have := Format.two_le_length_of_hasReg hreg; omega)
      rw [Entry.validAt, hop, hrA, hrB]
    rw [hvalid]
    by_cases hfits : a + e.fmt.length ≤ p.memSize
    · rw [e.record_congr fun x h1 h2 => h x h1 (by omega) (by omega)]
    · have htrunc : p.memSize < a + e.fmt.length := by omega
      simp only [htrunc, if_true]

/-- Settles O16: the window for every decode, and a success's own bytes, which are its instruction's encoding. -/
theorem decodeReadsOnlyItsBytes : Obligations.DecodeReadsOnlyItsBytes := by
  refine fun p M M' a => ⟨decode_congr, fun ins hok hsame => ?_⟩
  obtain ⟨i, hi, rfl⟩ := decode_eq_ok.mp hok
  have hbytes : bytesAt M' a i.length = bytesAt M a i.length := bytesAt_congr hsame
  refine decode_eq_ok.mpr ⟨i, ?_, rfl⟩
  rw [decodeInstr_eq_instr_iff_encode, hbytes]
  exact decodeInstr_eq_instr_iff_encode.mp hi

end Sys2Proof
end

section
/-! PROOFS. The whole decode of each class, its branches in the order of the checks (R125, R126, R138 to R140, R160,
R168, R169, R180, R181). -/

namespace Sys2Proof

open Claims

/-- What the validation predicate of R111 refuses: a subfunction above the largest, or a register outside its
position's class. -/
theorem Entry.valid_eq_false_iff {e : Entry} {f : Nibble} {rA rB : RegId} :
    e.valid f rA rB = false ↔
      e.ifunMax < f.toNat ∨ admitsIn e.rAClass rA = false ∨ admitsIn e.rBClass rB = false := by
  simp only [Entry.valid, Bool.and_eq_false_iff, decide_eq_false_iff_not, Nat.not_le, or_assoc]

/-- The nibbles that each class of register position refuses (R27, R103). -/
theorem admits_ofNibble_eq_false_iff (n : Nibble) :
    (admitsIn (some .reg) (RegId.ofNibble n) = false ↔ n.toNat = 0xF) ∧
    (admitsIn (some .none) (RegId.ofNibble n) = false ↔ n.toNat ≠ 0xF) ∧
    (admitsIn (some .regOrNone) (RegId.ofNibble n) = false ↔ False) := by
  revert n; decide

/-- Subfunction 0 in the record's eight bits (R71, R111). -/
theorem setWidth_of_toNat_eq_zero : ∀ {n : Nibble}, n.toNat = 0 → n.setWidth 8 = 0#8 := by decide

theorem RegId.ofNibble_of_toNat_eq_0xF : ∀ {n : Nibble}, n.toNat = 0xF → RegId.ofNibble n = .rnone := by decide

/-- The fields that an entry with a register byte refuses, from the bytes (R72, R111). -/
theorem Entry.validAt_eq_false_iff {e : Entry} {M : Contents} {a : Nat} (hreg : e.fmt.hasReg = true) :
    e.validAt M a = false ↔ e.ifunMax < (loNibble (M a)).toNat ∨
      admitsIn e.rAClass (RegId.ofNibble (hiNibble (M (a + 1)))) = false ∨
      admitsIn e.rBClass (RegId.ofNibble (loNibble (M (a + 1)))) = false := by
  rw [Entry.valid_eq_false_iff, Entry.rA, Entry.rB, if_pos hreg, if_pos hreg]

/-- The record of a ten-byte class with subfunction 0. -/
theorem Entry.record_of_f10 {e : Entry} {M : Contents} {a : Nat} (hf : e.fmt = .f10)
    (hsub : (loNibble (M a)).toNat = 0) :
    e.record M a = ins10 (IClass.ofNibble (hiNibble (M a))) (RegId.ofNibble (hiNibble (M (a + 1))))
      (RegId.ofNibble (loNibble (M (a + 1)))) (immediateAt M (a + 2)) a := by
  simp [Entry.record, ins10, Entry.rA, Entry.rB, Entry.valC, hf, Format.hasReg, Format.immOff, Format.length,
    setWidth_of_toNat_eq_zero hsub]

/-- Two checks with one answer are made one after the other. -/
theorem ite_or_eq {α : Type} {P Q : Prop} [Decidable P] [Decidable Q] (x y : α) :
    (if P ∨ Q then x else y) = if P then x else if Q then x else y := by
  by_cases hP : P
  · simp only [hP, true_or, if_true]
  · simp only [hP, false_or, if_false]

/-- The decode of a class of two or more bytes, from the fields that its entry refuses and the record that it gives
otherwise (R103, R114); `last` is the offset of the instruction's last byte. -/
theorem decode_of_long_entry {p : Params} {M : Contents} {a : Nat} (e : Entry) (last : Nat) (bad : Prop)
    [Decidable bad] (ins : Ins) (he : p.dispatch (IClass.ofNibble (hiNibble (M a))) = some e) (hlen : e.fmt.length = last + 1)
    (hlong : 1 ≤ last) (hbad : e.validAt M a = false ↔ bad) (hrecord : ¬ bad → e.record M a = ins) :
    decode p M a =
      if p.memSize ≤ a then failIA a none
      else if p.memSize ≤ a + 1 then failIA (a + 1) (some (M a))
      else if p.immCheckOrder = .boundsFirst ∧ p.memSize ≤ a + last then failIA p.memSize (some (M a))
      else if bad then failII a (some (M a))
      else if p.memSize ≤ a + last then failIA p.memSize (some (M a))
      else .ok ins := by
  have hlast : p.memSize < a + (last + 1) ↔ p.memSize ≤ a + last := by omega
  have htwo : 2 ≤ last + 1 := by omega
  by_cases ha : p.memSize ≤ a
  · rw [if_pos ha, decode_of_outside ha]
  rw [if_neg ha, decode_eq_of_entry (by omega) he]
  simp only [hbad, hlen, hlast, htwo, true_and]
  by_cases hsecond : p.memSize ≤ a + 1
  · rw [if_pos hsecond, if_pos hsecond, show p.memSize = a + 1 by omega]
  rw [if_neg hsecond, if_neg hsecond]
  by_cases hb : bad
  · simp only [hb, if_true]
  · simp only [hb, if_false, hrecord hb]

/-- Settles O18: with one byte and no registers, the subfunction is the only field to check. -/
theorem oneByteDecode : Obligations.OneByteDecode := by
  intro p M a c hc hn
  obtain ⟨he, hclass⟩ : p.dispatch (IClass.ofNibble (hiNibble (M a))) = some ⟨.f1, 0, none, none⟩ ∧
      IClass.ofNibble (hiNibble (M a)) = c.2 := by
    obtain rfl | rfl | rfl : c = (0, .halt) ∨ c = (1, .nop) ∨ c = (9, .ret) := by simpa using hc
    all_goals simp [IClass.ofNibble, hn, Params.dispatch]
  by_cases ha : p.memSize ≤ a
  · rw [if_pos ha, decode_of_outside ha]
  rw [if_neg ha, decode_eq_of_entry (by omega) he]
  have hfits : ¬ p.memSize < a + 1 := by omega
  by_cases hsub : (loNibble (M a)).toNat = 0
  · simp [Entry.valid, admitsIn, Format.length, hfits, hsub, Entry.record, ins1, hclass, Entry.rA, Entry.rB,
      Entry.valC, Format.hasReg, Format.immOff, setWidth_of_toNat_eq_zero]
  · simp [Entry.valid, admitsIn, Format.length, hfits, hsub]

/-- Settles O20: the first nibble's position admits the sentinel only, the second's an ordinary register only. -/
theorem irmovqDecode : Obligations.IrmovqDecode := by
  intro p M a hn
  have hc : IClass.ofNibble (hiNibble (M a)) = .immediateToRegister := by simp [IClass.ofNibble, hn]
  rw [decode_of_long_entry ⟨.f10, 0, some .none, some .reg⟩ 9
    ((loNibble (M a)).toNat ≠ 0 ∨ (hiNibble (M (a + 1))).toNat ≠ 0xF ∨ (loNibble (M (a + 1))).toNat = 0xF)
    (ins10 .immediateToRegister .rnone (RegId.ofNibble (loNibble (M (a + 1)))) (immediateAt M (a + 2)) a)
    (by rw [hc]; rfl) rfl (by decide)]
  · simp only [ite_or_eq]
  · rw [Entry.validAt_eq_false_iff rfl]
    simp only [admits_ofNibble_eq_false_iff, Nat.pos_iff_ne_zero]
  · simp only [not_or, Classical.not_not]
    rintro ⟨hsub, hrA, -⟩
    rw [Entry.record_of_f10 rfl hsub, hc, RegId.ofNibble_of_toNat_eq_0xF hrA]

/-- Settles O21: the second nibble's position admits every register, the sentinel included. -/
theorem rmmovqDecode : Obligations.RmmovqDecode := by
  intro p M a hn
  have hc : IClass.ofNibble (hiNibble (M a)) = .registerToMemory := by simp [IClass.ofNibble, hn]
  rw [decode_of_long_entry ⟨.f10, 0, some .reg, some .regOrNone⟩ 9
    ((loNibble (M a)).toNat ≠ 0 ∨ (hiNibble (M (a + 1))).toNat = 0xF)
    (ins10 .registerToMemory (RegId.ofNibble (hiNibble (M (a + 1))))
      (RegId.ofNibble (loNibble (M (a + 1)))) (immediateAt M (a + 2)) a)
    (by rw [hc]; rfl) rfl (by decide)]
  · simp only [ite_or_eq]
  · rw [Entry.validAt_eq_false_iff rfl]
    simp only [admits_ofNibble_eq_false_iff, Nat.pos_iff_ne_zero, or_false]
  · simp only [not_or, Classical.not_not]
    rintro ⟨hsub, -⟩
    rw [Entry.record_of_f10 rfl hsub, hc]

/-- Settles O22: `MRMOV_NIBBLES` names the position that admits the sentinel (the spec's decision D5). -/
theorem mrmovqDecode : Obligations.MrmovqDecode := by
  intro p M a hn
  have hc : IClass.ofNibble (hiNibble (M a)) = .memoryToRegister := by simp [IClass.ofNibble, hn]
  rw [decode_of_long_entry ⟨.f10, 0, some p.mrmovClasses.1, some p.mrmovClasses.2⟩ 9
    ((loNibble (M a)).toNat ≠ 0 ∨
      (p.mrmovNibbles = .sameAsRmmov ∧ (hiNibble (M (a + 1))).toNat = 0xF) ∨
      (p.mrmovNibbles = .swapped ∧ (loNibble (M (a + 1))).toNat = 0xF))
    (ins10 .memoryToRegister (RegId.ofNibble (hiNibble (M (a + 1))))
      (RegId.ofNibble (loNibble (M (a + 1)))) (immediateAt M (a + 2)) a)
    (by rw [hc]; rfl) rfl (by decide)]
  · simp only [ite_or_eq]
  · rw [Entry.validAt_eq_false_iff rfl, Params.mrmovClasses]
    cases p.mrmovNibbles <;> simp [admits_ofNibble_eq_false_iff, Nat.pos_iff_ne_zero]
  · simp only [not_or, Classical.not_not]
    rintro ⟨hsub, -⟩
    rw [Entry.record_of_f10 rfl hsub, hc]

/-- The table entry of a class with a target and subfunctions up to `m` (R81). -/
def Entry.target (m : Nat) : Entry := ⟨.f9, m, none, none⟩

/-- Settles O23: without registers, the subfunction is the only field to check, and any target is legal. -/
theorem targetDecode : Obligations.TargetDecode := by
  intro p M a c hc hn
  obtain ⟨he, hclass⟩ : p.dispatch (IClass.ofNibble (hiNibble (M a))) = some (.target c.2.1) ∧
      IClass.ofNibble (hiNibble (M a)) = c.2.2 := by
    obtain rfl | rfl : c = (7, 6, .jump) ∨ c = (8, 0, .call) := by simpa using hc
    all_goals simp [IClass.ofNibble, hn, Params.dispatch, Entry.target]
  refine decode_of_long_entry (.target c.2.1) 8 _ _ he rfl (by decide) ?_ fun _ => ?_
  · simp [Entry.valid_eq_false_iff, Entry.target, admitsIn]
  · rw [Entry.record, hclass]
    rfl

/-- The table entry of the Push and Pop classes (R81). -/
def Entry.stack : Entry := ⟨.f2, 0, some .reg, some .none⟩

/-- Settles O24: the first nibble's position admits an ordinary register only, the second's the sentinel only; the
second byte is the last, so that the order of the checks does not matter. -/
theorem stackDecode : Obligations.StackDecode := by
  intro p M a c hc hn
  obtain ⟨he, hclass⟩ : p.dispatch (IClass.ofNibble (hiNibble (M a))) = some .stack ∧
      IClass.ofNibble (hiNibble (M a)) = c.2 := by
    obtain rfl | rfl : c = (0xA, .push) ∨ c = (0xB, .pop) := by simpa using hc
    all_goals simp [IClass.ofNibble, hn, Params.dispatch, Entry.stack]
  rw [decode_of_long_entry .stack 1
    ((loNibble (M a)).toNat ≠ 0 ∨ (hiNibble (M (a + 1))).toNat = 0xF ∨ (loNibble (M (a + 1))).toNat ≠ 0xF)
    (ins2 c.2 0#8 (RegId.ofNibble (hiNibble (M (a + 1)))) .rnone a) he rfl (by decide)]
  · by_cases hsecond : p.memSize ≤ a + 1
    · simp only [hsecond, if_true]
    · simp only [hsecond, and_false, if_false, ite_or_eq]
  · rw [Entry.validAt_eq_false_iff rfl]
    simp only [Entry.stack, admits_ofNibble_eq_false_iff, Nat.pos_iff_ne_zero]
  · simp only [not_or, Classical.not_not]
    rintro ⟨hsub, -, hrB⟩
    simp only [Entry.record, hclass, setWidth_of_toNat_eq_zero hsub, Entry.rB, RegId.ofNibble_of_toNat_eq_0xF hrB]
    rfl

end Sys2Proof
end

section
/-! PROOFS. What is legal (R78, R80), and the spec's fixed words, codes and texts. -/

namespace Sys2Proof

open Claims

/-- The contents that hold some bytes show them at their address. -/
theorem bytesAt_contentsOf (a : Nat) (bs : List Byte) : bytesAt (contentsOf a bs) a bs.length = bs := by
  refine List.ext_getElem (by simp [bytesAt]) fun k h1 h2 => ?_
  have habove : ¬ a + k < a := by omega
  simp only [bytesAt, contentsOf, List.getElem_map, List.getElem_range, if_neg habove, Nat.add_sub_cancel_left,
    List.getD_eq_getElem?_getD, List.getElem?_eq_getElem h2, Option.getD_some]

theorem Instr.opcodeByte_mem_legalFirstBytes (i : Instr) : i.opcodeByte ∈ legalFirstBytes := by
  cases i <;> simp [Instr.opcodeByte, legalFirstBytes]

/-- One instruction of each constructor, in the order of R78's list, with ordinary registers. -/
def oneOfEach : List Instr :=
  [.halt, .nop, .rrmovq (.reg 0) (.reg 0), .cmovle (.reg 0) (.reg 0), .cmovl (.reg 0) (.reg 0),
    .cmove (.reg 0) (.reg 0), .cmovne (.reg 0) (.reg 0), .cmovge (.reg 0) (.reg 0), .cmovg (.reg 0) (.reg 0),
    .irmovq (.reg 0) 0, .rmmovq (.reg 0) (.reg 0) 0, .mrmovq (.reg 0) (.reg 0) 0, .addq (.reg 0) (.reg 0),
    .subq (.reg 0) (.reg 0), .andq (.reg 0) (.reg 0), .xorq (.reg 0) (.reg 0), .call 0, .ret, .jmp 0, .jle 0, .jl 0,
    .je 0, .jne 0, .jge 0, .jg 0, .pushq (.reg 0), .popq (.reg 0)]

theorem legalFirstBytes_eq : legalFirstBytes = oneOfEach.map Instr.opcodeByte := by decide

/-- With ordinary registers everywhere an instruction is well formed, whatever `MRMOV_NIBBLES` is (R72). -/
theorem wellFormed_of_mem_oneOfEach {p : Params} {i : Instr} (h : i ∈ oneOfEach) : i.wellFormed p = true := by
  have hall : oneOfEach.all (Instr.wellFormed p) = true := by
    cases hnibbles : p.mrmovNibbles <;> simp [oneOfEach, Instr.wellFormed, hnibbles]
  exact List.all_eq_true.mp hall i h

/-- Settles O11: an instruction found has one of the listed opcode bytes, and for each listed byte an instruction
that begins with it is found where its encoding stands. -/
theorem legalFirstBytes : Obligations.LegalFirstBytes := by
  intro p hsize b
  constructor
  · rintro ⟨M, a, ins, rfl, hok⟩
    obtain ⟨i, hi, -⟩ := decode_eq_ok.mp hok
    obtain ⟨-, hop, -⟩ := decodeInstr_eq_instr.mp hi
    rw [hop]
    exact i.opcodeByte_mem_legalFirstBytes
  · intro hb
    rw [legalFirstBytes_eq] at hb
    obtain ⟨i, hi, rfl⟩ := List.mem_map.mp hb
    have hlen : (encode i).length ≤ 10 := i.length_encode ▸ i.format.length_le_maxLen
    refine ⟨contentsOf 0 (encode i), 0, i.record 0, rfl, decode_eq_ok.mpr ⟨i, ?_, rfl⟩⟩
    exact decodeOfEncode p _ 0 i (wellFormed_of_mem_oneOfEach hi) (by omega) (bytesAt_contentsOf 0 _)

/-- Settles O1, by running the decoder on each word. -/
theorem specWordsDecode : Obligations.SpecWordsDecode := by
  unfold Obligations.SpecWordsDecode
  decide

/-- How many nibbles a register position admits (R27). -/
def admitted (c : Option RegClass) : Nat :=
  (List.range 16).countP fun n => admitsIn c (RegId.ofNibble (BitVec.ofNat 4 n))

theorem hiNibble_loNibble_ofNat {x y : Nat} (hx : x < 16) (hy : y < 16) :
    hiNibble (BitVec.ofNat 8 (16 * x + y)) = BitVec.ofNat 4 x ∧
      loNibble (BitVec.ofNat 8 (16 * x + y)) = BitVec.ofNat 4 y := by
  have hall : ∀ x y : Fin 16, hiNibble (BitVec.ofNat 8 (16 * x.val + y.val)) = BitVec.ofNat 4 x.val ∧
      loNibble (BitVec.ofNat 8 (16 * x.val + y.val)) = BitVec.ofNat 4 y.val := by decide
  exact hall ⟨x, hx⟩ ⟨y, hy⟩

/-- The bytes whose two nibbles each meet a condition, counted by rows of 16. -/
theorem countP_nibblePairs (F G : Nibble → Bool) {n : Nat} (hn : n ≤ 16) :
    (List.range (16 * n)).countP (fun b => F (hiNibble (BitVec.ofNat 8 b)) && G (loNibble (BitVec.ofNat 8 b))) =
      (List.range n).countP (fun x => F (BitVec.ofNat 4 x)) *
        (List.range 16).countP (fun y => G (BitVec.ofNat 4 y)) := by
  induction n with
  | zero => rw [Nat.mul_zero, List.range_zero, List.countP_nil, List.countP_nil, Nat.zero_mul]
  | succ n ih =>
    have hrow : ((List.range 16).map (16 * n + ·)).countP
          (fun b => F (hiNibble (BitVec.ofNat 8 b)) && G (loNibble (BitVec.ofNat 8 b))) =
        (List.range 16).countP (fun y => F (BitVec.ofNat 4 n) && G (BitVec.ofNat 4 y)) := by
      rw [List.countP_map]
      refine List.countP_congr fun y hy => ?_
      obtain ⟨hhi, hlo⟩ := hiNibble_loNibble_ofNat (show n < 16 by omega) (List.mem_range.mp hy)
      simp only [Function.comp_apply, hhi, hlo]
    have hsucc : List.range (n + 1) = List.range n ++ [n] := List.range_succ
    rw [Nat.mul_succ, List.range_add, List.countP_append, ih (by omega), hrow, hsucc, List.countP_append,
      List.countP_singleton, Nat.add_mul]
    cases F (BitVec.ofNat 4 n)
    · simp
    · simp

/-- After an opcode byte with a legal subfunction, the decode of an instruction at 0 whose other bytes are 0 turns on
its register byte alone (R72). -/
theorem decodesAtZero_eq {p : Params} {e : Entry} {b0 b : Byte} (hsize : 10 ≤ p.memSize)
    (he : p.dispatch (IClass.ofNibble (hiNibble b0)) = some e) (hreg : e.fmt.hasReg = true)
    (hsub : (loNibble b0).toNat ≤ e.ifunMax) :
    decodesAtZero p [b0, b] =
      (admitsIn e.rAClass (RegId.ofNibble (hiNibble b)) && admitsIn e.rBClass (RegId.ofNibble (loNibble b))) := by
  have hmax : e.fmt.length ≤ 10 := e.fmt.length_le_maxLen
  have hdispatch : p.dispatch (IClass.ofNibble (hiNibble (contentsOf 0 [b0, b] 0))) = some e := he
  have hvalid : e.validAt (contentsOf 0 [b0, b]) 0 =
      (admitsIn e.rAClass (RegId.ofNibble (hiNibble b)) && admitsIn e.rBClass (RegId.ofNibble (loNibble b))) := by
    have hop : contentsOf 0 [b0, b] 0 = b0 := rfl
    have hsecond : contentsOf 0 [b0, b] 1 = b := rfl
    simp [Entry.validAt, Entry.valid, Entry.rA, Entry.rB, hreg, hop, hsecond, hsub]
  unfold decodesAtZero
  rw [decode_eq_of_entry (by omega) hdispatch, if_neg (by omega), if_neg (by omega), hvalid]
  cases admitsIn e.rAClass (RegId.ofNibble (hiNibble b)) && admitsIn e.rBClass (RegId.ofNibble (loNibble b))
  · rfl
  · rw [if_neg (by decide), if_neg (by omega)]

/-- The legal register bytes are the pairs of admitted nibbles (R80, from R72). -/
theorem legalRegisterBytes_eq {p : Params} {e : Entry} {b0 : Byte} (hsize : 10 ≤ p.memSize)
    (he : p.dispatch (IClass.ofNibble (hiNibble b0)) = some e) (hreg : e.fmt.hasReg = true)
    (hsub : (loNibble b0).toNat ≤ e.ifunMax) :
    legalRegisterBytes p b0 = admitted e.rAClass * admitted e.rBClass := by
  rw [legalRegisterBytes, ← List.countP_eq_length_filter]
  refine Eq.trans (List.countP_congr fun b _ => ?_) (countP_nibblePairs
    (fun n => admitsIn e.rAClass (RegId.ofNibble n)) (fun n => admitsIn e.rBClass (RegId.ofNibble n)) (Nat.le_refl 16))
  rw [decodesAtZero_eq hsize he hreg hsub]

/-- Settles O12: 15 nibbles name ordinary registers, one the sentinel, and all 16 one or the other, and the counts are
the products. -/
theorem legalRegisterByteCounts : Obligations.LegalRegisterByteCounts := by
  have hordinary : admitted (some .reg) = 15 := by decide
  have hnone : admitted (some .none) = 1 := by decide
  have hall : admitted (some .regOrNone) = 16 := by decide
  have hsize : 10 ≤ Params.default.memSize := by decide
  refine ⟨fun b hb => ?_, ?_, ?_, ?_, ?_, ?_, ?_⟩
  · have htable : ∀ b ∈ [0x20#8, 0x21#8, 0x22#8, 0x23#8, 0x24#8, 0x25#8, 0x26#8, 0x60#8, 0x61#8, 0x62#8, 0x63#8],
        ∃ m ∈ [6, 3], Params.default.dispatch (IClass.ofNibble (hiNibble b)) = some (.registerPair m) ∧
          (loNibble b).toNat ≤ m := by decide
    obtain ⟨m, -, he, hsub⟩ := htable b hb
    rw [legalRegisterBytes_eq hsize he rfl hsub]
    simp [Entry.registerPair, hordinary]
  all_goals
    rw [legalRegisterBytes_eq (by decide) rfl rfl (by decide)]
    simp [hordinary, hnone, hall, Params.default, Params.mrmovClasses]

/-- Settles O17, by the definitions of the codes. -/
theorem statusAndFaultCodes : Obligations.StatusAndFaultCodes :=
  ⟨rfl, rfl, rfl, rfl, rfl, rfl, rfl, rfl⟩

/-- Settles O60, by rendering each instruction. -/
theorem renderedText : Obligations.RenderedText := by
  unfold Obligations.RenderedText
  decide

end Sys2Proof
end

section
/-! PROOFS. The effect of each instruction (R125 to R181, R211, R212): it completes where its bytes fit and its
operands are legal, and otherwise its fault is taken. -/

namespace Sys2Proof.Machine

open Claims

/-! ### Completion -/

theorem Instr.iclass_eq_halt_iff (i : Instr) : i.iclass = .halt ↔ i = .halt := by
  cases i <;> simp [Instr.iclass]

/-- What `Stat` and the phase become is said for `halt` alone (R23, R197). -/
theorem Stat.afterOk_of_ne_halt {c : IClass} (st : Stat) (h : c ≠ .halt) : st.afterOk c = st := if_neg h

theorem Phase.afterOk_of_ne_halt {c : IClass} (ph : Phase) (p : Params) (h : c ≠ .halt) : ph.afterOk p c = ph := by
  simp [Phase.afterOk, h]

/-- An instruction that is no halt lists its line and advances, and nothing else (R194). -/
theorem State.retire_eq_afterLine {s : State} {i : Instr} (h : i.iclass ≠ .halt) :
    s.retire i = afterLine s (i.record s.walk.pc) := by
  rw [State.retire, Stat.afterOk_of_ne_halt _ h, Phase.afterOk_of_ne_halt _ _ h]
  rfl

/-- An instruction that is no halt completes where its bytes fit and its operands are legal. -/
theorem exec_completes {s : State} {i : Instr} (hfits : s.walk.pc + i.length ≤ s.params.memSize)
    (hwf : i.wellFormed s.params = true) (h : i.iclass ≠ .halt) :
    exec i s = .next (afterLine s (i.record s.walk.pc)) := by
  rw [exec_eq, State.complete_of_fits hfits hwf, State.retire_eq_afterLine h]

/-- Settles O25. -/
theorem haltCompletes : Obligations.HaltCompletes := by
  intro s hfits
  have hphase : s.walk.phase.afterOk s.params .halt =
      if s.params.haltStopsWalk = true then .done else s.walk.phase := by simp [Phase.afterOk]
  rw [exec_eq, State.complete_of_fits hfits rfl, ← hphase]
  rfl

/-- Settles O26. -/
theorem nopAndRetComplete : Obligations.NopAndRetComplete := fun _ hfits =>
  ⟨exec_completes hfits rfl (by decide), exec_completes hfits rfl (by decide)⟩

/-- Settles O27. -/
theorem conditionalMovesComplete : Obligations.ConditionalMovesComplete := by
  intro s m n hfits
  refine ⟨?_, ?_, ?_, ?_, ?_, ?_, ?_⟩ <;> exact exec_completes hfits rfl (by simp [Instr.iclass])

/-- Settles O28. -/
theorem irmovqCompletes : Obligations.IrmovqCompletes := fun _ _ _ hfits =>
  exec_completes hfits rfl (by simp [Instr.iclass])

/-- Settles O29. -/
theorem rmmovqCompletes : Obligations.RmmovqCompletes := fun _ _ _ _ hfits =>
  exec_completes hfits rfl (by simp [Instr.iclass])

/-- Settles O30: `MRMOV_NIBBLES` names the operand that must be ordinary. -/
theorem mrmovqCompletes : Obligations.MrmovqCompletes := fun _ _ _ _ hfits =>
  ⟨fun hn => exec_completes hfits (by simp [Instr.wellFormed, hn]) (by simp [Instr.iclass]),
    fun hn => exec_completes hfits (by simp [Instr.wellFormed, hn]) (by simp [Instr.iclass])⟩

/-- Settles O31. -/
theorem arithmeticCompletes : Obligations.ArithmeticCompletes := by
  intro s m n hfits
  refine ⟨?_, ?_, ?_, ?_⟩ <;> exact exec_completes hfits rfl (by simp [Instr.iclass])

/-- Settles O32. -/
theorem jumpsAndCallComplete : Obligations.JumpsAndCallComplete := by
  intro s c hfits
  refine ⟨?_, ?_, ?_, ?_, ?_, ?_, ?_, ?_⟩ <;> exact exec_completes hfits rfl (by simp [Instr.iclass])

/-- Settles O33. -/
theorem pushAndPopComplete : Obligations.PushAndPopComplete := fun _ _ hfits =>
  ⟨exec_completes hfits rfl (by simp [Instr.iclass]), exec_completes hfits rfl (by simp [Instr.iclass])⟩

/-! ### The frame -/

/-- Settles O34: an instruction retires or takes its fault, and both change `pc`, `Stat`, the phase and the output
only. -/
theorem instructionFrame : Obligations.InstructionFrame := by
  intro i s t h
  rw [exec_eq] at h
  injection h with h
  subst h
  rcases s.complete_cases i with ⟨f, -, hfault⟩ | ⟨-, -, hretire⟩
  · rw [hfault]
    exact ⟨fun _ => rfl, rfl, rfl, rfl, rfl, rfl, ⟨_, rfl⟩, .inr ⟨rfl, f.kind, rfl, rfl⟩⟩
  · rw [hretire]
    refine ⟨fun _ => rfl, rfl, rfl, rfl, rfl, rfl, ⟨_, rfl⟩, .inl ⟨rfl, fun hne => ?_⟩⟩
    have hclass : i.iclass ≠ .halt := mt (Instr.iclass_eq_halt_iff i).mp hne
    exact ⟨Stat.afterOk_of_ne_halt _ hclass, Phase.afterOk_of_ne_halt _ _ hclass⟩

/-- What an instruction does to `pc`, `Stat` and the phase depends on its format, its class and its well-formedness
only. -/
theorem State.complete_congr {s : State} {i j : Instr} (hformat : i.format = j.format)
    (hclass : i.iclass = j.iclass) (hwf : i.wellFormed s.params = j.wellFormed s.params) :
    (s.complete j).walk.pc = (s.complete i).walk.pc ∧ (s.complete j).walk.stat = (s.complete i).walk.stat ∧
      (s.complete j).walk.phase = (s.complete i).walk.phase := by
  have hlen : j.length = i.length := by rw [Instr.length, Instr.length, hformat]
  have hfailure : Instr.failure s.params s.contents s.walk.pc j = Instr.failure s.params s.contents s.walk.pc i := by
    rw [Instr.failure, Instr.failure, hlen, hformat, hwf]
  unfold State.complete
  rw [hfailure]
  split
  · exact ⟨rfl, rfl, rfl⟩
  · simp [hlen, hclass]

/-- Settles O37: two targets leave the format, the class and the well-formedness of a jump or a call alike. -/
theorem targetsAreNotFollowed : Obligations.TargetsAreNotFollowed := by
  intro s c c' i hi
  obtain ⟨hformat, hclass, hwf⟩ : i.1.format = i.2.format ∧ i.1.iclass = i.2.iclass ∧
      i.1.wellFormed s.params = i.2.wellFormed s.params := by
    simp only [List.mem_cons, List.not_mem_nil, or_false] at hi
    rcases hi with rfl | rfl | rfl | rfl | rfl | rfl | rfl | rfl <;> exact ⟨rfl, rfl, rfl⟩
  exact ⟨_, _, exec_eq _ _, exec_eq _ _, State.complete_congr hformat hclass hwf⟩

/-! ### The exceptions -/

/-- An instruction whose rule's first exception is `f` takes it. -/
theorem State.complete_of_failure {s : State} {i : Instr} {f : Failure}
    (h : Instr.failure s.params s.contents s.walk.pc i = some f) : s.complete i = s.takeFault f := by
  unfold State.complete
  rw [h]

/-- Outside the space an instruction aborts with InvalidAddress there, with no raw byte (R211). -/
theorem exec_of_outside {s : State} (i : Instr) (ha : s.params.memSize ≤ s.walk.pc) :
    exec i s = .next (afterIA s s.walk.pc none) := by
  have hfailure : Instr.failure s.params s.contents s.walk.pc i = some ⟨.invalidAddress, s.walk.pc, none⟩ :=
    if_pos ha
  rw [exec_eq, State.complete_of_failure hfailure]
  rfl

/-- Inside the space an instruction aborts with the first failure of its checks, if there is one (R112). -/
theorem exec_of_firstFailure {s : State} {i : Instr} {k : FaultKind} {x : Nat} (ha : s.walk.pc < s.params.memSize)
    (h : s.params.firstFailure s.walk.pc i.length i.format.immOff (i.wellFormed s.params) = some (k, x)) :
    exec i s = .next (s.takeFault ⟨k, x, some (s.mem.byteAt s.walk.pc)⟩) := by
  rw [exec_eq, State.complete_of_failure]
  rw [Instr.failure, if_neg (by omega), h]
  rfl

/-- Settles O35: with legal operands the one failure that is left is a byte outside. -/
theorem truncatedInstructionsAbort : Obligations.TruncatedInstructionsAbort := by
  intro i s hwf htrunc
  by_cases ha : s.params.memSize ≤ s.walk.pc
  · rw [if_pos ha, exec_of_outside i ha]
  rw [if_neg ha]
  have hin : s.walk.pc < s.params.memSize := by omega
  have hff : s.params.firstFailure s.walk.pc i.length i.format.immOff (i.wellFormed s.params) =
      some (.invalidAddress, s.params.memSize) := by
    rw [Instr.length] at htrunc ⊢
    simp [Params.firstFailure_eq i.format hin, hwf, htrunc]
  exact exec_of_firstFailure hin hff

/-- An instruction without a register byte is well formed (R72). -/
theorem Instr.hasReg_of_not_wellFormed {p : Params} {i : Instr} (h : i.wellFormed p = false) :
    i.format.hasReg = true := by
  cases i <;> simp [Instr.wellFormed] at h <;> rfl

/-- Settles O36: an illegal operand stands in the second byte, so that the bounds of that byte come first, and the
bounds of the others only with `BoundsFirst`. -/
theorem illegalOperandsAbort : Obligations.IllegalOperandsAbort := by
  intro i s hwf
  by_cases ha : s.params.memSize ≤ s.walk.pc
  · rw [if_pos ha, exec_of_outside i ha]
  rw [if_neg ha]
  have hin : s.walk.pc < s.params.memSize := by omega
  have htwo : 2 ≤ i.length := Format.two_le_length_of_hasReg (Instr.hasReg_of_not_wellFormed hwf)
  have hff := @Params.firstFailure_eq s.params s.walk.pc (i.wellFormed s.params) i.format hin
  rw [← Instr.length] at hff
  simp only [htwo, hwf, true_and, if_true] at hff
  by_cases hsecond : s.params.memSize ≤ s.walk.pc + 1
  · rw [if_pos hsecond] at hff ⊢
    exact exec_of_firstFailure hin (hwf ▸ hff)
  rw [if_neg hsecond] at hff ⊢
  by_cases hbounds : s.params.immCheckOrder = .boundsFirst ∧ s.params.memSize < s.walk.pc + i.length
  · rw [if_pos hbounds] at hff ⊢
    exact exec_of_firstFailure hin (hwf ▸ hff)
  · rw [if_neg hbounds] at hff ⊢
    exact exec_of_firstFailure hin (hwf ▸ hff)

end Sys2Proof.Machine
end

section
/-! PROOFS. The step (R192 to R202): each of its branches as an equation, and what a step or a run of steps does. -/

namespace Sys2Proof.Machine

open Claims

/-! ### The branches -/

theorem step_eq_walkStep {s : State} (hw : s.walk.phase = .walking) : step s = walkStep s := by rw [step, hw]

theorem State.atEnd_iff {s : State} : s.atEnd = true ↔ s.walk.seg.segEnd ≤ s.walk.pc := by simp [State.atEnd]

/-- R193: at or past the segment's end a walk's step ends it. -/
theorem step_at_end {s : State} (hw : s.walk.phase = .walking) (hend : s.walk.seg.segEnd ≤ s.walk.pc) :
    step s = .next s.endWalk := by
  rw [step_eq_walkStep hw, walkStep, if_pos (State.atEnd_iff.mpr hend)]

/-- R195: before it a failed decode is taken, after the label. -/
theorem step_of_failed {s : State} {f : Failure} (hw : s.walk.phase = .walking)
    (hin : s.walk.pc < s.walk.seg.segEnd) (hd : s.decodeHere = .failed f) :
    step s = .next (s.emitLabel.takeFault f) := by
  rw [step_eq_walkStep hw, walkStep, if_neg (by rw [State.atEnd_iff]; omega), hd]

/-- R192: before it a decoded instruction is executed, after the label. -/
theorem step_of_instr {s : State} {i : Instr} (hw : s.walk.phase = .walking)
    (hin : s.walk.pc < s.walk.seg.segEnd) (hd : s.decodeHere = .instr i) :
    step s = exec i s.emitLabel := by
  rw [step_eq_walkStep hw, walkStep, if_neg (by rw [State.atEnd_iff]; omega), hd]

/-- R194: after a successful decode the step has the instruction's effect, after the label. -/
theorem step_retires {s : State} {i : Instr} (hw : s.walk.phase = .walking)
    (hin : s.walk.pc < s.walk.seg.segEnd) (hd : s.decodeHere = .instr i) :
    step s = .next (s.emitLabel.retire i) := by
  rw [step_of_instr hw hin hd, exec_eq, State.complete_of_decodeHere (by rw [State.emitLabel_decodeHere, hd])]

/-- R201: after a walk in Done the next one starts. -/
theorem step_starts_next {s : State} {g : Segment} {rest : List Segment} (hd : s.walk.phase = .done)
    (hp : s.pending = g :: rest) :
    step s = .next { s with walk := .start g, pending := rest, finished := s.finished ++ [s.walk] } := by
  rw [step, hd]
  simp only [State.nextWalk, hp]

/-- R202: a run whose last walk is in Done is complete. -/
theorem step_of_complete {s : State} (hd : s.walk.phase = .done) (hp : s.pending = []) :
    step s = .fault .runComplete := by
  rw [step, hd]
  simp only [State.nextWalk, hp]

/-- R196, R202: no step follows an abort. -/
theorem step_of_aborted {s : State} {k : FaultKind} (ha : s.walk.phase = .aborted k) :
    step s = .fault (.runAborted k) := by
  rw [step, ha]

/-! ### One step -/

/-- Settles O38. -/
theorem stepRunsDecodedInstruction : Obligations.StepRunsDecodedInstruction := by
  intro s i hw hin hd
  rw [step_of_instr hw hin hd, State.emitLabel_eq]

/-- Settles O39. -/
theorem stepListsDecodedInstruction : Obligations.StepListsDecodedInstruction := by
  intro s ins hw hin hok
  obtain ⟨i, hi, rfl⟩ := decode_eq_ok.mp hok
  refine ⟨_, step_retires hw hin hi, ?_, ?_, ?_⟩
  · simp [Instr.record]
  · rw [State.retire_stat, State.emitLabel_stat]
    rfl
  · simp [State.emitLabel_out, Instr.record, State.contents]

/-- Settles O40. -/
theorem onlyHaltMayEndAWalkEarly : Obligations.OnlyHaltMayEndAWalkEarly := by
  intro s t ins hw hin hok h
  obtain ⟨i, hi, rfl⟩ := decode_eq_ok.mp hok
  rw [step_retires hw hin hi] at h
  injection h with h
  subst h
  show _ = if s.params.haltStopsWalk = true ∧ i.iclass = .halt then Phase.done else Phase.walking
  simp [Phase.afterOk, hw]

/-- Settles O41. -/
theorem stepTakesDecodeFailure : Obligations.StepTakesDecodeFailure := by
  intro s f hw hin hfail
  rw [step_of_failed hw hin (decode_eq_fail.mp hfail), State.emitLabel_eq]
  obtain ⟨kind, addr, raw⟩ := f
  cases kind <;> rfl

/-- Settles O42. -/
theorem walkEndsAtSegmentEnd : Obligations.WalkEndsAtSegmentEnd := fun _ hw hend => step_at_end hw hend

/-- Settles O43. -/
theorem nextWalkStartsFresh : Obligations.NextWalkStartsFresh := fun _ _ _ hd hp => step_starts_next hd hp

/-- Settles O44: the phase, and in Done the segments left, decide which branch of the step is taken. -/
theorem finalRunsHaveNoStep : Obligations.FinalRunsHaveNoStep := by
  intro s
  cases hphase : s.walk.phase with
  | walking =>
    obtain ⟨t, ht, -⟩ := step_walking s hphase
    simp [ht]
  | done =>
    cases hp : s.pending with
    | nil => simp [step_of_complete hphase hp]
    | cons g rest => simp [step_starts_next hphase hp]
  | aborted k =>
    rw [step_of_aborted hphase]
    simp

/-- The label, where it stands, precedes the step's other event (R198). -/
theorem labelAt_append_event (entry pc : Nat) {e : Event} (he : isLabel e = false) :
    if pc = entry then ∃ e', labelAt entry pc ++ [e] = [.label pc, e'] ∧ isLabel e' = false
    else ∀ e' ∈ labelAt entry pc ++ [e], isLabel e' = false := by
  by_cases hentry : pc = entry <;> simp [labelAt, hentry, he]

/-- Settles O45: the end of a walk adds no event, and every other step of it adds the label, where it stands, and one
event that is no label. -/
theorem labelExactlyAtEntryPoint : Obligations.LabelExactlyAtEntryPoint := by
  intro s t hw h
  rcases step_cases h with ⟨-, hend, rfl⟩ | ⟨-, hin, f, -, rfl⟩ | ⟨-, hin, i, -, rfl⟩ | ⟨hd, -⟩
  · refine ⟨[], by simp, ?_⟩
    rw [if_neg (by omega)]
    simp
  · refine ⟨labelAt s.entryPoint.toNat s.walk.pc ++ [.diagnostic f.kind s.walk.pc f.addr f.raw], ?_, ?_⟩
    · simp [State.emitLabel_out, labelAt]
    · simpa only [hin, true_and] using labelAt_append_event _ _ rfl
  · refine ⟨labelAt s.entryPoint.toNat s.walk.pc ++
      [.line s.walk.pc (bytesAt s.contents s.walk.pc i.length) (i.record s.walk.pc)], ?_, ?_⟩
    · simp [State.emitLabel_out, labelAt]
    · simpa only [hin, true_and] using labelAt_append_event _ _ rfl
  · rw [hw] at hd
    contradiction

/-- Settles O47: of the four things a step can do, the end of a walk keeps `Stat`, and of the instructions only `halt`
changes it. -/
theorem statusChangesOnlyByHaltFaultAndStart : Obligations.StatusChangesOnlyByHaltFaultAndStart := by
  intro s t h hne
  rcases step_cases h with ⟨-, -, rfl⟩ | ⟨-, -, f, hf, rfl⟩ | ⟨-, -, i, hi, rfl⟩ | ⟨hd, g, rest, -, rfl⟩
  · exact absurd rfl hne
  · exact .inr (.inl ⟨f, decode_eq_fail.mpr hf, rfl, rfl⟩)
  · have hhalt : i.iclass = .halt := Decidable.byContradiction fun hc =>
      hne (by rw [State.retire_stat, State.emitLabel_stat, Stat.afterOk_of_ne_halt _ hc])
    obtain rfl := (Instr.iclass_eq_halt_iff i).mp hhalt
    exact .inl ⟨decode_eq_ok.mpr ⟨.halt, hi, rfl⟩, by simp [Stat.afterOk, Instr.iclass]⟩
  · exact .inr (.inr ⟨hd, rfl⟩)

/-- Settles O48. -/
theorem stepEndsOrAdvances : Obligations.StepEndsOrAdvances := by
  intro s t hw h
  rcases step_cases h with ⟨-, -, rfl⟩ | ⟨-, -, f, -, rfl⟩ | ⟨-, -, i, hi, rfl⟩ | ⟨hd, -⟩
  · exact .inl (by simp)
  · exact .inl (by simp)
  · obtain ⟨⟨hfits, -⟩, -⟩ := decodeInstr_eq_instr.mp hi
    exact .inr ⟨i.record s.walk.pc, decode_eq_ok.mpr ⟨i, hi, rfl⟩, i.one_le_length, by simp [Instr.record],
      by simpa using hfits⟩
  · rw [hw] at hd
    contradiction

/-! ### Walks and runs -/

theorem walkFor_of_ended {s : State} (h : s.walk.phase ≠ .walking) (n : Nat) : walkFor n s = s := by
  cases n with
  | zero => rfl
  | succ n =>
    cases hp : s.walk.phase with
    | walking => exact absurd hp h
    | done => simp only [walkFor, hp]
    | aborted k => simp only [walkFor, hp]

theorem walkFor_succ {s t : State} (hw : s.walk.phase = .walking) (h : step s = .next t) (n : Nat) :
    walkFor (n + 1) s = walkFor n t := by
  rw [step_eq_walkStep hw] at h
  simp only [walkFor, hw, h]

/-- A walking state's step stays in the walk, and either ends it or advances inside the segment and the space
(R199). -/
theorem step_walking_cases {s : State} (hw : s.walk.phase = .walking) :
    ∃ t, step s = .next t ∧ t.walk.seg = s.walk.seg ∧ t.params = s.params ∧ t.pending = s.pending ∧
      (t.walk.phase ≠ .walking ∨ s.walk.pc < s.walk.seg.segEnd ∧ s.walk.pc < t.walk.pc ∧
        t.walk.pc ≤ s.params.memSize) := by
  obtain ⟨t, ht, -⟩ := step_walking s hw
  refine ⟨t, ht, ?_⟩
  rcases step_cases ht with ⟨-, -, rfl⟩ | ⟨-, -, f, -, rfl⟩ | ⟨-, hin, i, hi, rfl⟩ | ⟨hd, -⟩
  · simp
  · simp
  · obtain ⟨⟨hfits, -⟩, -⟩ := decodeInstr_eq_instr.mp hi
    have hlen := i.one_le_length
    refine ⟨by simp, by simp, by simp, .inr ⟨hin, ?_, by simpa using hfits⟩⟩
    simp
    omega
  · rw [hw] at hd
    contradiction

/-- A walk has ended after more steps than there are bytes left of its segment inside the space (R199). -/
theorem walkFor_ends (n : Nat) (s : State)
    (h : min (s.walk.seg.segEnd - s.walk.pc) (s.params.memSize - s.walk.pc) < n) :
    (walkFor n s).walk.phase ≠ .walking := by
  induction n generalizing s with
  | zero => omega
  | succ n ih =>
    by_cases hw : s.walk.phase = .walking
    · obtain ⟨t, ht, hseg, hparams, -, hended | ⟨hin, hpc, hmem⟩⟩ := step_walking_cases hw
      · rw [walkFor_succ hw ht, walkFor_of_ended hended]
        exact hended
      · rw [walkFor_succ hw ht]
        exact ih t (by rw [hseg, hparams]; omega)
    · rwa [walkFor_of_ended hw]

/-- Settles O49: at a walk's start the segment's size is what is left of it, and outside the space the first decode
fails. -/
theorem walkTerminates : Obligations.WalkTerminates := by
  intro s g hs
  have hw : s.walk.phase = .walking := by rw [hs]; rfl
  have hpc : s.walk.pc = g.virtualStart.toNat := by rw [hs]; rfl
  have hend : s.walk.seg.segEnd = g.virtualStart.toNat + g.size.toNat := by rw [hs]; rfl
  refine ⟨walkFor_ends _ s (by rw [hend, hpc]; omega), fun hout hsize => ?_⟩
  have hfail : s.decodeHere = .failed ⟨.invalidAddress, s.walk.pc, none⟩ :=
    decode_eq_fail.mp (decode_of_outside (by omega))
  rw [walkFor_succ hw (step_of_failed hw (by omega) hfail)]
  exact ⟨rfl, rfl, by rw [← hpc]; simp [walkFor]⟩

/-- Some number of steps leads from the state to a final one (R202). -/
def State.Ends (s : State) : Prop :=
  ∃ (n : Nat) (t : State), Host.Core.run core n s = .next t ∧
    (step t = .fault .runComplete ∨ ∃ k, step t = .fault (.runAborted k))

theorem State.Ends.of_step {s t : State} (h : step s = .next t) (ht : t.Ends) : s.Ends := by
  obtain ⟨n, u, hrun, hfinal⟩ := ht
  exact ⟨n + 1, u, by rw [run_succ_of_next core h, hrun], hfinal⟩

/-- A run ends if it does from wherever its present walk may end, since that walk ends (R199). -/
theorem State.ends_of_walk_ends {s : State}
    (h : ∀ t : State, t.pending = s.pending → t.walk.phase ≠ .walking → t.Ends) : s.Ends := by
  induction hn : s.walk.seg.segEnd - s.walk.pc using Nat.strongRecOn generalizing s with
  | _ n ih =>
    by_cases hw : s.walk.phase = .walking
    · obtain ⟨t, ht, hseg, -, hpending, hended | ⟨hin, hpc, -⟩⟩ := step_walking_cases hw
      · exact .of_step ht (h t hpending hended)
      · exact .of_step ht (ih _ (by rw [hseg]; omega) (hpending ▸ h) rfl)
    · exact h s rfl hw

/-- Settles O50, by induction on the segments still to come. -/
theorem everyRunEnds : Obligations.EveryRunEnds := by
  intro s
  show s.Ends
  induction hp : s.pending generalizing s with
  | nil =>
    refine State.ends_of_walk_ends fun t ht hended => ⟨0, t, rfl, ?_⟩
    cases hphase : t.walk.phase with
    | walking => exact absurd hphase hended
    | done => exact .inl (step_of_complete hphase (ht.trans hp))
    | aborted k => exact .inr ⟨k, step_of_aborted hphase⟩
  | cons g rest ih =>
    refine State.ends_of_walk_ends fun t ht hended => ?_
    cases hphase : t.walk.phase with
    | walking => exact absurd hphase hended
    | done => exact .of_step (step_starts_next hphase (ht.trans hp)) (ih _ rfl)
    | aborted k => exact ⟨0, t, rfl, .inr ⟨k, step_of_aborted hphase⟩⟩

end Sys2Proof.Machine
end

section
/-! PROOFS. What the invariant says of a run (R24, R198, R201, R202), and that reset and boot establish it (R232,
R231). -/

namespace Sys2Proof.Machine

open Claims

/-! ### Sound walks -/

/-- A status that lines leave is no fault (R23). -/
theorem statAfter_eq (ls : List ListingLine) : statAfter ls = .running ∨ statAfter ls = .halted := by
  unfold statAfter
  split
  · exact .inr rfl
  · exact .inl rfl

theorem Stat.ofFault_injective : ∀ {k l : FaultKind}, Stat.ofFault k = Stat.ofFault l → k = l
  | .invalidAddress, .invalidAddress, _ => rfl
  | .invalidInstruction, .invalidInstruction, _ => rfl

theorem Stat.ofFault_ne (k : FaultKind) : Stat.ofFault k ≠ .running ∧ Stat.ofFault k ≠ .halted := by
  cases k <;> decide

/-- Without a fault a sound walk is Running or Halted. -/
theorem Walk.sound.stat_eq {p : Params} {M : Contents} {entry : Nat} {w : Walk} (h : w.sound p M entry)
    (hphase : ∀ k, w.phase ≠ .aborted k) : w.stat = .running ∨ w.stat = .halted := by
  obtain ⟨ls, -, -, h⟩ := h
  cases hp : w.phase with
  | walking =>
    rw [hp] at h
    obtain ⟨-, hstat, -⟩ := h
    exact hstat ▸ statAfter_eq ls
  | done =>
    rw [hp] at h
    obtain ⟨-, hstat, -⟩ := h
    exact hstat ▸ statAfter_eq ls
  | aborted k => exact absurd hp (hphase k)

/-- What a sound walk that has aborted says (R195). -/
theorem Walk.sound.of_aborted {p : Params} {M : Contents} {entry : Nat} {w : Walk} {k : FaultKind}
    (h : w.sound p M entry) (hphase : w.phase = .aborted k) :
    w.stat = .ofFault k ∧ ∃ x raw, decode p M w.pc = .fail ⟨k, x, raw⟩ ∧
      ∃ evs, w.out = evs ++ [.diagnostic k w.pc x raw] := by
  obtain ⟨ls, -, -, h⟩ := h
  rw [hphase] at h
  obtain ⟨x, raw, hdecode, -, hstat, hout⟩ := h
  exact ⟨hstat, x, raw, hdecode, listing entry ls ++ labelAt entry w.pc, by rw [hout, List.append_assoc]⟩

/-- A sound walk with a fault status has aborted with that fault. -/
theorem Walk.sound.phase_of_stat {p : Params} {M : Contents} {entry : Nat} {w : Walk} {k : FaultKind}
    (h : w.sound p M entry) (hstat : w.stat = .ofFault k) : w.phase = .aborted k := by
  by_cases hphase : ∃ l, w.phase = .aborted l
  · obtain ⟨l, hl⟩ := hphase
    rw [hl, Stat.ofFault_injective (hstat.symm.trans (h.of_aborted hl).1)]
  · obtain ⟨hrunning, hhalted⟩ := Stat.ofFault_ne k
    rcases h.stat_eq (not_exists.mp hphase) with hw | hw
    · exact absurd (hstat.symm.trans hw) hrunning
    · exact absurd (hstat.symm.trans hw) hhalted

/-- Settles O51: the step keeps the invariant, in which a fault status means an abort, and nothing follows one. -/
theorem faultStatusIsFinal : Obligations.FaultStatusIsFinal := by
  intro s t k hs h hstat
  have hphase := (invariantIsKept s t hs h).walk_sound.phase_of_stat hstat
  have hstep := step_of_aborted hphase
  refine ⟨hphase, fun u hu => ?_, hstep⟩
  rw [hstep] at hu
  contradiction

/-- Settles O58. -/
theorem completeRunsHaveOnlyDoneWalks : Obligations.CompleteRunsHaveOnlyDoneWalks := by
  intro s hs h
  obtain ⟨hcomplete, -⟩ := finalRunsHaveNoStep s
  obtain ⟨hdone, hpending⟩ := hcomplete.mp h
  have hstat (w : Walk) (hw : w.phase = .done) (hsound : w.sound s.params s.contents s.entryPoint.toNat) :
      w.stat = .running ∨ w.stat = .halted :=
    hsound.stat_eq fun k hk => by rw [hw] at hk; contradiction
  refine ⟨by simp [State.runStatus, hdone, hpending], fun w hw => ?_⟩
  rcases List.mem_append.mp hw with hw | hw
  · obtain ⟨hwdone, hsound⟩ := hs.walks_ended w hw
    exact ⟨hwdone, hstat w hwdone hsound⟩
  · obtain rfl := List.mem_singleton.mp hw
    exact ⟨hdone, hstat _ hdone hs.walk_sound⟩

/-- The raw byte of the last diagnostic is found whatever precedes it. -/
theorem lastRaw_append_diagnostic (evs : List Event) (k : FaultKind) (pc x : Nat) (raw : Option Byte) :
    lastRaw (evs ++ [.diagnostic k pc x raw]) = raw := by
  have hcons (e : Event) (es : List Event) (hes : es ≠ []) : lastRaw (e :: es) = lastRaw es := by
    cases es with
    | nil => exact absurd rfl hes
    | cons e' es => cases e <;> rfl
  induction evs with
  | nil => rfl
  | cons e evs ih => rw [List.cons_append, hcons e _ (by simp), ih]

/-- Settles O59. -/
theorem abortedRunsNameTheirFailure : Obligations.AbortedRunsNameTheirFailure := by
  intro s k hs h
  obtain ⟨-, haborted, -⟩ := finalRunsHaveNoStep s
  have hphase := (haborted k).mp h
  obtain ⟨-, x, raw, hdecode, evs, hout⟩ := hs.walk_sound.of_aborted hphase
  refine ⟨x, raw, hdecode, ?_⟩
  rw [State.runStatus, hphase, hout]
  simp only [lastRaw_append_diagnostic]

/-! ### The entry label -/

/-- The address after an instruction is above its own (R66, R109). -/
theorem lt_valP_of_decode_eq_ok {p : Params} {M : Contents} {a : Nat} {ins : Ins} (h : decode p M a = .ok ins) :
    a < ins.valP := by
  obtain ⟨i, -, rfl⟩ := decode_eq_ok.mp h
  exact Nat.lt_add_of_pos_right i.one_le_length

theorem Tiles.le {p : Params} {M : Contents} {a b : Nat} {ls : List ListingLine} (h : Tiles p M a ls b) : a ≤ b := by
  induction ls generalizing a with
  | nil => exact Nat.le_of_eq h
  | cons l ls ih =>
    obtain ⟨-, hdecode, -, hrest⟩ := h
    exact Nat.le_trans (Nat.le_of_lt (lt_valP_of_decode_eq_ok hdecode)) (ih hrest)

/-- The labels among some events. -/
def labels (evs : List Event) : Nat := (evs.filter isLabel).length

@[simp] theorem labels_append (evs evs' : List Event) : labels (evs ++ evs') = labels evs + labels evs' := by
  simp [labels]

theorem labels_labelAt (entry pc : Nat) : labels (labelAt entry pc) = if pc = entry then 1 else 0 := by
  unfold labelAt
  split <;> rfl

/-- Lines stand at rising addresses, so that at most one of them stands at the entry point, and none does where the
entry point is outside the code listed (R198). -/
theorem Tiles.labels_listing {p : Params} {M : Contents} {a b : Nat} {ls : List ListingLine}
    (h : Tiles p M a ls b) (entry : Nat) :
    labels (listing entry ls) ≤ 1 ∧ (entry < a ∨ b ≤ entry → labels (listing entry ls) = 0) := by
  induction ls generalizing a with
  | nil => exact ⟨Nat.zero_le 1, fun _ => rfl⟩
  | cons l ls ih =>
    obtain ⟨haddr, hdecode, -, hrest⟩ := h
    have hnext := lt_valP_of_decode_eq_ok hdecode
    have hle := hrest.le
    have hcount : labels (listing entry (l :: ls)) = labels (labelAt entry a) + labels (listing entry ls) := by
      have hlisting : listing entry (l :: ls) =
          labelAt entry a ++ [.line l.addr l.bytes l.ins] ++ listing entry ls := by simp [listing, haddr]
      rw [hlisting, labels_append, labels_append]
      rfl
    obtain ⟨hone, hzero⟩ := ih hrest
    rw [hcount, labels_labelAt]
    by_cases hentry : a = entry
    · rw [if_pos hentry]
      omega
    · rw [if_neg hentry]
      omega

/-- Settles O57: the lines before `pc` have at most one label, and none where the label of the failing decode at `pc`
follows. -/
theorem labelAtMostOnce : Obligations.LabelAtMostOnce := by
  intro s hs
  show labels s.walk.out ≤ 1
  obtain ⟨ls, htiles, -, hphase⟩ := hs.walk_sound
  obtain ⟨hone, hzero⟩ := htiles.labels_listing s.entryPoint.toNat
  cases hp : s.walk.phase with
  | walking =>
    rw [hp] at hphase
    obtain ⟨hout, -⟩ := hphase
    rwa [hout]
  | done =>
    rw [hp] at hphase
    obtain ⟨hout, -⟩ := hphase
    rwa [hout]
  | aborted k =>
    rw [hp] at hphase
    obtain ⟨x, raw, -, -, -, hout⟩ := hphase
    have hdiagnostic : labels [.diagnostic k s.walk.pc x raw] = 0 := rfl
    rw [hout, labels_append, labels_append, labels_labelAt, hdiagnostic]
    by_cases hentry : s.walk.pc = s.entryPoint.toNat
    · rw [if_pos hentry]
      omega
    · rw [if_neg hentry]
      omega

/-! ### Reset and boot -/

/-- Settles O53. -/
theorem resetMeetsInvariant : Obligations.ResetMeetsInvariant :=
  ⟨rfl, rfl, rfl, Walk.sound_start _ _ _ _, by simp [State.reset]⟩

/-- Settles O54. -/
theorem resetValues : Obligations.ResetValues := ⟨rfl, rfl, rfl, rfl, fun _ => rfl, rfl, rfl, rfl, rfl⟩

/-- Settles O55: loading keeps the memory canonical and inside the space, and the first walk is at its start, or, with
no Code segment, empty and in Done. -/
theorem bootMeetsInvariant : Obligations.BootMeetsInvariant := by
  intro p image entry s h
  obtain ⟨hp, himage, -, rfl⟩ := boot_eq_next h
  have hwf : (loadSegments [] image).wf = true := loadSegments_wf rfl image
  have hwithin : (loadSegments [] image).within p.memSize = true := by
    refine loadSegments_within rfl image fun g hg => ?_
    obtain ⟨hbytes, hend⟩ := himage g hg
    rwa [hbytes]
  unfold bootState
  split
  · exact ⟨hp, hwf, hwithin, ⟨[], rfl, by simp, rfl, rfl, .inl (Nat.le_refl 0)⟩, by simp [State.reset]⟩
  · exact ⟨hp, hwf, hwithin, Walk.sound_start _ _ _ _, by simp [State.reset]⟩

/-- An address that a segment's bytes cover. -/
def LoadSegment.covers (g : LoadSegment) (a : Nat) : Prop :=
  g.desc.virtualStart.toNat ≤ a ∧ a < g.desc.virtualStart.toNat + g.bytes.length

/-- Disjoint segments cover no address in common (R54). -/
theorem LoadSegment.not_covers_of_disjoint {g h : LoadSegment} {a : Nat} (hdisjoint : g.disjoint h = true)
    (hsizeg : g.bytes.length = g.desc.size.toNat) (hsizeh : h.bytes.length = h.desc.size.toNat)
    (hg : g.covers a) : ¬ h.covers a := by
  obtain ⟨hg1, hg2⟩ := hg
  rintro ⟨hh1, hh2⟩
  simp only [LoadSegment.disjoint, Bool.or_eq_true, decide_eq_true_eq, beq_iff_eq] at hdisjoint
  simp only [Segment.segEnd] at hdisjoint
  have hzero {x : Addr16} (hx : x = 0#16) : x.toNat = 0 := by rw [hx]; rfl
  rcases hdisjoint with ((hbefore | hafter) | hempty) | hempty
  · omega
  · omega
  · have := hzero hempty
    omega
  · have := hzero hempty
    omega

/-- Loading leaves every byte that no segment covers. -/
theorem byteAt_loadSegments_of_not_covered {m : Memory} (hm : m.wf = true) {image : List LoadSegment} {a : Nat}
    (h : ∀ g ∈ image, ¬ g.covers a) : (loadSegments m image).byteAt a = m.byteAt a := by
  induction image generalizing m with
  | nil => rfl
  | cons g rest ih =>
    obtain ⟨hg, hrest⟩ := List.forall_mem_cons.mp h
    rw [loadSegments, ih (Memory.wf_storeBytes hm _ _) hrest, Memory.byteAt_storeBytes hm]
    exact if_neg hg

/-- Loading puts the bytes of a segment at their places, where no other segment covers them. -/
theorem byteAt_loadSegments_of_mem {m : Memory} (hm : m.wf = true) {image : List LoadSegment}
    (hsize : ∀ g ∈ image, g.bytes.length = g.desc.size.toNat) (hdisjoint : disjointSegments image = true)
    {g : LoadSegment} (hg : g ∈ image) {k : Nat} (hk : k < g.bytes.length) :
    (loadSegments m image).byteAt (g.desc.virtualStart.toNat + k) = g.bytes.getD k 0#8 := by
  induction image generalizing m with
  | nil => contradiction
  | cons h rest ih =>
    obtain ⟨hhead, htail⟩ : (∀ g ∈ rest, h.disjoint g = true) ∧ disjointSegments rest = true := by
      simpa [disjointSegments] using hdisjoint
    obtain ⟨hsizeh, hsizer⟩ := List.forall_mem_cons.mp hsize
    rw [loadSegments]
    rcases List.mem_cons.mp hg with rfl | hg
    · rw [byteAt_loadSegments_of_not_covered (Memory.wf_storeBytes hm _ _), Memory.byteAt_storeBytes hm,
        if_pos (by omega), Nat.add_sub_cancel_left]
      · rfl
      · exact fun g' hg' => LoadSegment.not_covers_of_disjoint (hhead g' hg') hsizeh (hsizer g' hg')
          ⟨by omega, by omega⟩
    · exact ih (Memory.wf_storeBytes hm _ _) hsizer htail hg

theorem bootState_eq (p : Params) (m : Memory) (entry : Addr16) (codes : List Segment) :
    (bootState p m entry codes).mem = m ∧ (bootState p m entry codes).entryPoint = entry ∧
      (bootState p m entry codes).params = p := by
  cases codes <;> exact ⟨rfl, rfl, rfl⟩

/-- Settles O56: loading copies every segment and leaves the rest of a zero space, and the first Code segment is the
first walk's. -/
theorem bootLoadsTheImage : Obligations.BootLoadsTheImage := by
  intro p image entry s h
  obtain ⟨-, himage, hdisjoint, rfl⟩ := boot_eq_next h
  have hsize : ∀ g ∈ image, g.bytes.length = g.desc.size.toNat := fun g hg => (himage g hg).1
  obtain ⟨hmem, hentry, hparams⟩ := bootState_eq p (loadSegments [] image) entry (codeSegments image)
  refine ⟨fun g hg k hk => ?_, fun a ha => ?_, hentry, hparams, fun c rest hcodes => ?_⟩
  · rw [hmem]
    exact byteAt_loadSegments_of_mem rfl hsize hdisjoint hg hk
  · rw [hmem, byteAt_loadSegments_of_not_covered rfl]
    · rfl
    · rintro g hg ⟨h1, h2⟩
      rw [hsize g hg] at h2
      rcases ha g hg with hbelow | habove
      · omega
      · rw [Segment.segEnd] at habove
        omega
  · rw [hcodes]
    exact ⟨rfl, rfl⟩

end Sys2Proof.Machine
end
